-- ==== Sys2Proof/Word.lean ====
section
/-! DEFINITION. The word types of CORE (spec 00_scope.md R11, R14, R20): bytes, 16-bit words, 12-bit immediate
addresses, and the 4-bit indexes of registers and keys. -/

namespace Sys2Proof

/-- An 8-bit unsigned value: a memory byte, a V register, a timer (R11). -/
abbrev Byte := BitVec 8

/-- A 16-bit value: an opcode word, pc, I, a stack entry (R11). -/
abbrev Word := BitVec 16

/-- A 12-bit immediate address, the field `nnn` (R111). -/
abbrev Addr := BitVec 12

/-- The index of a data register V0..VF, the fields `x` and `y` (R14, R111). -/
abbrev Reg := Fin 16

/-- The index of a key 0x0..0xF (R45). -/
abbrev Key := Fin 16

end Sys2Proof
end

