-- ==== Sys2Proof/Syntax.lean ====
section
/-! DEFINITION. The instructions of CORE: one constructor per row of spec/opcode_table.json, in the table's order, with
the operand fields of 30_encoding.md R111 and R112. The operand types are exactly the fields' widths, so every term is
well formed. The words that decode to UNKNOWN (R116) are no instruction of the table and have no constructor. -/

namespace Sys2Proof

/-- The 34 instructions (30_encoding.md R112, R114, R120). -/
inductive Instr where
  /-- 00E0: clear the framebuffer. -/
  | cls
  /-- 00EE: return from subroutine. -/
  | ret
  /-- 1NNN: jump. -/
  | jp (nnn : Addr)
  /-- 2NNN: call subroutine. -/
  | call (nnn : Addr)
  /-- 3XNN: skip if V[x] equals nn. -/
  | seVxNn (x : Reg) (nn : Byte)
  /-- 4XNN: skip if V[x] differs from nn. -/
  | sneVxNn (x : Reg) (nn : Byte)
  /-- 5XY0: skip if V[x] equals V[y]. -/
  | seVxVy (x y : Reg)
  /-- 6XNN: load immediate. -/
  | ldVxNn (x : Reg) (nn : Byte)
  /-- 7XNN: add immediate. -/
  | addVxNn (x : Reg) (nn : Byte)
  /-- 8XY0: copy. -/
  | ldVxVy (x y : Reg)
  /-- 8XY1: bitwise or. -/
  | or (x y : Reg)
  /-- 8XY2: bitwise and. -/
  | and (x y : Reg)
  /-- 8XY3: bitwise exclusive or. -/
  | xor (x y : Reg)
  /-- 8XY4: add with carry. -/
  | addVxVy (x y : Reg)
  /-- 8XY5: subtract, VF = no borrow. -/
  | sub (x y : Reg)
  /-- 8XY6: shift right by one; y is kept but ignored (R119). -/
  | shr (x y : Reg)
  /-- 8XY7: reverse subtract. -/
  | subn (x y : Reg)
  /-- 8XYE: shift left by one; y is kept but ignored (R119). -/
  | shl (x y : Reg)
  /-- 9XY0: skip if V[x] differs from V[y]. -/
  | sneVxVy (x y : Reg)
  /-- ANNN: load the index register. -/
  | ldI (nnn : Addr)
  /-- BNNN: jump to nnn plus V0. -/
  | jpV0 (nnn : Addr)
  /-- CXNN: random byte and mask. -/
  | rnd (x : Reg) (nn : Byte)
  /-- DXYN: draw a sprite of n rows. -/
  | drw (x y : Reg) (n : Fin 16)
  /-- EX9E: skip if the key in V[x] is pressed. -/
  | skp (x : Reg)
  /-- EXA1: skip if the key in V[x] is not pressed. -/
  | sknp (x : Reg)
  /-- FX07: read the delay timer. -/
  | ldVxDt (x : Reg)
  /-- FX0A: wait for a key press. -/
  | ldVxK (x : Reg)
  /-- FX15: set the delay timer. -/
  | ldDtVx (x : Reg)
  /-- FX18: set the sound timer. -/
  | ldStVx (x : Reg)
  /-- FX1E: add to index. -/
  | addIVx (x : Reg)
  /-- FX29: point I at a font glyph. -/
  | ldFVx (x : Reg)
  /-- FX33: store the three decimal digits of V[x]. -/
  | ldBVx (x : Reg)
  /-- FX55: store V0..V[x] to memory. -/
  | ldMemVx (x : Reg)
  /-- FX65: load V0..V[x] from memory. -/
  | ldVxMem (x : Reg)
deriving DecidableEq, Repr

end Sys2Proof
end

