-- ==== Sys2Proof/Decode.lean ====
section
/-! DEFINITION. The fields of an opcode word, the decoder and the encoder (spec 30_encoding.md R110–R119). Decoding is
total: a word is an instruction of the table or is rejected by name as `unknown`. UNVERIFIED: the encodings that the
source does not give are the spec's own, from general knowledge (R114, R115; log 6). -/

namespace Sys2Proof

namespace Field

/-- `op`, bits 15..12 (R111). -/
def op (w : Word) : BitVec 4 := w.extractLsb' 12 4

/-- `x`, bits 11..8 (R111). -/
def x (w : Word) : Reg := (w.extractLsb' 8 4).toFin

/-- `y`, bits 7..4 (R111). -/
def y (w : Word) : Reg := (w.extractLsb' 4 4).toFin

/-- `n`, bits 3..0 (R111). -/
def n (w : Word) : Fin 16 := (w.extractLsb' 0 4).toFin

/-- `nn`, bits 7..0 (R111). -/
def nn (w : Word) : Byte := w.extractLsb' 0 8

/-- `nnn`, bits 11..0 (R111). -/
def nnn (w : Word) : Addr := w.extractLsb' 0 12

end Field

/-- What a word decodes to (R114): one instruction of the table, or UNKNOWN. -/
inductive Decoded where
  /-- An instruction of the opcode table. -/
  | instr (i : Instr)
  /-- UNKNOWN: the word is no instruction (R116). -/
  | unknown
deriving DecidableEq, Repr

/-- Family 0x8: the low nibble selects the operation (R114). -/
def decodeFamily8 (w : Word) : Decoded :=
  match (Field.n w).val with
  | 0x0 => .instr (.ldVxVy (Field.x w) (Field.y w))
  | 0x1 => .instr (.or (Field.x w) (Field.y w))
  | 0x2 => .instr (.and (Field.x w) (Field.y w))
  | 0x3 => .instr (.xor (Field.x w) (Field.y w))
  | 0x4 => .instr (.addVxVy (Field.x w) (Field.y w))
  | 0x5 => .instr (.sub (Field.x w) (Field.y w))
  | 0x6 => .instr (.shr (Field.x w) (Field.y w))
  | 0x7 => .instr (.subn (Field.x w) (Field.y w))
  | 0xE => .instr (.shl (Field.x w) (Field.y w))
  | _ => .unknown

/-- Family 0xE: the low byte selects the key test (R114). -/
def decodeFamilyE (w : Word) : Decoded :=
  match (Field.nn w).toNat with
  | 0x9E => .instr (.skp (Field.x w))
  | 0xA1 => .instr (.sknp (Field.x w))
  | _ => .unknown

/-- Family 0xF: the low byte selects the operation (R114). -/
def decodeFamilyF (w : Word) : Decoded :=
  match (Field.nn w).toNat with
  | 0x07 => .instr (.ldVxDt (Field.x w))
  | 0x0A => .instr (.ldVxK (Field.x w))
  | 0x15 => .instr (.ldDtVx (Field.x w))
  | 0x18 => .instr (.ldStVx (Field.x w))
  | 0x1E => .instr (.addIVx (Field.x w))
  | 0x29 => .instr (.ldFVx (Field.x w))
  | 0x33 => .instr (.ldBVx (Field.x w))
  | 0x55 => .instr (.ldMemVx (Field.x w))
  | 0x65 => .instr (.ldVxMem (Field.x w))
  | _ => .unknown

/-- `decode` of R114: the family nibble first, then the fixed sub-function bits. -/
def decode (w : Word) : Decoded :=
  match (Field.op w).toNat with
  | 0x0 => if w = 0x00E0 then .instr .cls else if w = 0x00EE then .instr .ret else .unknown
  | 0x1 => .instr (.jp (Field.nnn w))
  | 0x2 => .instr (.call (Field.nnn w))
  | 0x3 => .instr (.seVxNn (Field.x w) (Field.nn w))
  | 0x4 => .instr (.sneVxNn (Field.x w) (Field.nn w))
  | 0x5 => if Field.n w = 0 then .instr (.seVxVy (Field.x w) (Field.y w)) else .unknown
  | 0x6 => .instr (.ldVxNn (Field.x w) (Field.nn w))
  | 0x7 => .instr (.addVxNn (Field.x w) (Field.nn w))
  | 0x8 => decodeFamily8 w
  | 0x9 => if Field.n w = 0 then .instr (.sneVxVy (Field.x w) (Field.y w)) else .unknown
  | 0xA => .instr (.ldI (Field.nnn w))
  | 0xB => .instr (.jpV0 (Field.nnn w))
  | 0xC => .instr (.rnd (Field.x w) (Field.nn w))
  | 0xD => .instr (.drw (Field.x w) (Field.y w) (Field.n w))
  | 0xE => decodeFamilyE w
  | _ => decodeFamilyF w

/-- An instruction word from its two bytes as they lie in memory, the most significant first (20_memory.md R83, R84). -/
def wordOfBytes (hi lo : Byte) : Word := hi ++ lo

/-- The byte of an instruction word at the lower address (R83). -/
def highByte (w : Word) : Byte := w.extractLsb' 8 8

/-- The byte of an instruction word at the higher address (R83). -/
def lowByte (w : Word) : Byte := w.extractLsb' 0 8

/-- Decoding two bytes of memory: every instruction has this one length (R110). -/
def decodeBytes (hi lo : Byte) : Decoded := decode (wordOfBytes hi lo)

/-- The word that the opcode table numbers as `w`, with `nbits` bits given and every bit above them 0. -/
def tableWord (nbits w : Nat) : Word := BitVec.ofNat 16 (w % 2 ^ nbits)

/-- The instruction read from a row of the opcode table, its bytes laid out as memory holds them. -/
def decodeTableWord (nbits w : Nat) : Option Instr :=
  match decodeBytes (highByte (tableWord nbits w)) (lowByte (tableWord nbits w)) with
  | .instr i => some i
  | .unknown => none

/-- The 4 bits of a register index or row count in a word. -/
def nibble (k : Fin 16) : BitVec 4 := BitVec.ofFin k

/-- Form `NNN` of R112. -/
def formNNN (op : BitVec 4) (nnn : Addr) : Word := op ++ nnn

/-- Form `XNN` of R112; form `X` is the same layout with fixed low bits. -/
def formXNN (op : BitVec 4) (x : Reg) (nn : Byte) : Word := op ++ nibble x ++ nn

/-- Form `XYN` of R112; form `XY` is the same layout with a fixed low nibble. -/
def formXYN (op : BitVec 4) (x y : Reg) (n : BitVec 4) : Word := op ++ nibble x ++ nibble y ++ n

/-- The word of an instruction, from the layouts of R112 and the fixed bits of opcode_table.json. -/
def encode : Instr → Word
  | .cls => 0x00E0
  | .ret => 0x00EE
  | .jp nnn => formNNN 0x1 nnn
  | .call nnn => formNNN 0x2 nnn
  | .seVxNn x nn => formXNN 0x3 x nn
  | .sneVxNn x nn => formXNN 0x4 x nn
  | .seVxVy x y => formXYN 0x5 x y 0x0
  | .ldVxNn x nn => formXNN 0x6 x nn
  | .addVxNn x nn => formXNN 0x7 x nn
  | .ldVxVy x y => formXYN 0x8 x y 0x0
  | .or x y => formXYN 0x8 x y 0x1
  | .and x y => formXYN 0x8 x y 0x2
  | .xor x y => formXYN 0x8 x y 0x3
  | .addVxVy x y => formXYN 0x8 x y 0x4
  | .sub x y => formXYN 0x8 x y 0x5
  | .shr x y => formXYN 0x8 x y 0x6
  | .subn x y => formXYN 0x8 x y 0x7
  | .shl x y => formXYN 0x8 x y 0xE
  | .sneVxVy x y => formXYN 0x9 x y 0x0
  | .ldI nnn => formNNN 0xA nnn
  | .jpV0 nnn => formNNN 0xB nnn
  | .rnd x nn => formXNN 0xC x nn
  | .drw x y n => formXYN 0xD x y (nibble n)
  | .skp x => formXNN 0xE x 0x9E
  | .sknp x => formXNN 0xE x 0xA1
  | .ldVxDt x => formXNN 0xF x 0x07
  | .ldVxK x => formXNN 0xF x 0x0A
  | .ldDtVx x => formXNN 0xF x 0x15
  | .ldStVx x => formXNN 0xF x 0x18
  | .addIVx x => formXNN 0xF x 0x1E
  | .ldFVx x => formXNN 0xF x 0x29
  | .ldBVx x => formXNN 0xF x 0x33
  | .ldMemVx x => formXNN 0xF x 0x55
  | .ldVxMem x => formXNN 0xF x 0x65

/-- The fixed bits of an instruction's row of opcode_table.json (R115): its mask. -/
def tableMask : Instr → Word
  | .cls => 0xFFFF
  | .ret => 0xFFFF
  | .jp _ => 0xF000
  | .call _ => 0xF000
  | .seVxNn _ _ => 0xF000
  | .sneVxNn _ _ => 0xF000
  | .seVxVy _ _ => 0xF00F
  | .ldVxNn _ _ => 0xF000
  | .addVxNn _ _ => 0xF000
  | .ldVxVy _ _ => 0xF00F
  | .or _ _ => 0xF00F
  | .and _ _ => 0xF00F
  | .xor _ _ => 0xF00F
  | .addVxVy _ _ => 0xF00F
  | .sub _ _ => 0xF00F
  | .shr _ _ => 0xF00F
  | .subn _ _ => 0xF00F
  | .shl _ _ => 0xF00F
  | .sneVxVy _ _ => 0xF00F
  | .ldI _ => 0xF000
  | .jpV0 _ => 0xF000
  | .rnd _ _ => 0xF000
  | .drw _ _ _ => 0xF000
  | .skp _ => 0xF0FF
  | .sknp _ => 0xF0FF
  | .ldVxDt _ => 0xF0FF
  | .ldVxK _ => 0xF0FF
  | .ldDtVx _ => 0xF0FF
  | .ldStVx _ => 0xF0FF
  | .addIVx _ => 0xF0FF
  | .ldFVx _ => 0xF0FF
  | .ldBVx _ => 0xF0FF
  | .ldMemVx _ => 0xF0FF
  | .ldVxMem _ => 0xF0FF

/-- The values of the fixed bits of an instruction's row of opcode_table.json (R115): its match. -/
def tableMatch : Instr → Word
  | .cls => 0x00E0
  | .ret => 0x00EE
  | .jp _ => 0x1000
  | .call _ => 0x2000
  | .seVxNn _ _ => 0x3000
  | .sneVxNn _ _ => 0x4000
  | .seVxVy _ _ => 0x5000
  | .ldVxNn _ _ => 0x6000
  | .addVxNn _ _ => 0x7000
  | .ldVxVy _ _ => 0x8000
  | .or _ _ => 0x8001
  | .and _ _ => 0x8002
  | .xor _ _ => 0x8003
  | .addVxVy _ _ => 0x8004
  | .sub _ _ => 0x8005
  | .shr _ _ => 0x8006
  | .subn _ _ => 0x8007
  | .shl _ _ => 0x800E
  | .sneVxVy _ _ => 0x9000
  | .ldI _ => 0xA000
  | .jpV0 _ => 0xB000
  | .rnd _ _ => 0xC000
  | .drw _ _ _ => 0xD000
  | .skp _ => 0xE09E
  | .sknp _ => 0xE0A1
  | .ldVxDt _ => 0xF007
  | .ldVxK _ => 0xF00A
  | .ldDtVx _ => 0xF015
  | .ldStVx _ => 0xF018
  | .addIVx _ => 0xF01E
  | .ldFVx _ => 0xF029
  | .ldBVx _ => 0xF033
  | .ldMemVx _ => 0xF055
  | .ldVxMem _ => 0xF065

end Sys2Proof
end

