-- ==== Sys2Proof/Config.lean ====
section
/-! DEFINITION. What is fixed for one CORE: the constants and the two parameters of spec 00_scope.md R11 and R12, the
font of 20_memory.md R95, and the one value the spec leaves free, the random byte of R19. -/

namespace Sys2Proof.Config

/-- `MEM_SIZE` (R11). -/
def memSize : Nat := 4096

/-- `STACK_DEPTH` (R11). -/
def stackDepth : Nat := 16

/-- `PROG_BASE`, where LOAD copies the ROM and where the program starts (R11, R81). -/
def progBase : Nat := 0x200

/-- `ROM_MAX`, the longest ROM that LOAD accepts (R11, R332). -/
def romMax : Nat := 3584

/-- `FB_W` (R11). -/
def fbWidth : Nat := 64

/-- `FB_H` (R11). -/
def fbHeight : Nat := 32

/-- The font size in bytes: 16 glyphs of 5 bytes (R11, R93). -/
def fontSize : Nat := 80

/-- The greatest legal `FONT_BASE`: the font must end below 0x200 (R11, decision D23). -/
def fontBaseMax : Nat := 0x1B0

/-- The parameter `SPRITE_EDGE` (R11, R252): where a sprite pixel past the screen edge goes. -/
inductive SpriteEdge where
  /-- It reappears at the opposite edge. -/
  | wrap
  /-- It is not drawn and cannot collide. -/
  | clip
deriving DecidableEq, Repr

/-- The parameters of CORE, the only ones a model takes as arguments (R12). -/
structure Params where
  /-- `FONT_BASE`, 0x000..0x1B0 (R11): the bound is in the type. -/
  fontBase : Fin 0x1B1
  /-- `SPRITE_EDGE` (R11). -/
  edge : SpriteEdge
deriving DecidableEq, Repr

/-- The default parameters of R11: `FONT_BASE` = 0x050, `SPRITE_EDGE` = wrap. -/
def Params.default : Params := { fontBase := 0x050, edge := .wrap }

/-- Glyphs 0..7 of the font, five rows each (R95). UNVERIFIED: the spec has the bytes from general knowledge (log 6). -/
def glyphsLow : List (List Byte) :=
  [[0xF0, 0x90, 0x90, 0x90, 0xF0], [0x20, 0x60, 0x20, 0x20, 0x70],
   [0xF0, 0x10, 0xF0, 0x80, 0xF0], [0xF0, 0x10, 0xF0, 0x10, 0xF0],
   [0x90, 0x90, 0xF0, 0x10, 0x10], [0xF0, 0x80, 0xF0, 0x10, 0xF0],
   [0xF0, 0x80, 0xF0, 0x90, 0xF0], [0xF0, 0x10, 0x20, 0x40, 0x40]]

/-- Glyphs 8..F of the font, five rows each (R95). UNVERIFIED as `glyphsLow` (log 6). -/
def glyphsHigh : List (List Byte) :=
  [[0xF0, 0x90, 0xF0, 0x90, 0xF0], [0xF0, 0x90, 0xF0, 0x10, 0xF0],
   [0xF0, 0x90, 0xF0, 0x90, 0x90], [0xE0, 0x90, 0xE0, 0x90, 0xE0],
   [0xF0, 0x80, 0x80, 0x80, 0xF0], [0xE0, 0x90, 0x90, 0x90, 0xE0],
   [0xF0, 0x80, 0xF0, 0x80, 0xF0], [0xF0, 0x80, 0xF0, 0x80, 0x80]]

/-- `FONT`: byte `5d + r` is row r of glyph d (R93, R95). -/
def font : List Byte := (glyphsLow ++ glyphsHigh).flatten

/-- The free random byte: the value of the k-th draw that no input names. The spec puts no law on it (R19, R214), so
nothing here gives it a value. DESIGN CHOICE (log 2). -/
opaque rndByte : Nat → Byte

end Sys2Proof.Config
end

