-- ==== Sys2Proof/Machine/State.lean ====
section
/-! DEFINITION. The state of CORE as plain data (spec 10_state.md R30): every element of the state tuple under the
spec's name, the outputs of the last command (40_engine_cycle.md R153), and the model's own fields for the parameters
and the random input. `sp` is the length of `stack` (log 11). -/

namespace Sys2Proof.Machine

/-- Memory as (address, byte) pairs in one canonical form: addresses strictly rising, no entry equal to what an
unlisted address reads as (`Memory.wf`). -/
abbrev Memory := List Host.Cell

/-- The framebuffer, 32 rows of 64 pixels, row 0 at the top and column 0 at the left (R43); `true` is a set pixel. -/
abbrev Framebuffer := Vector (Vector Bool 64) 32

/-- The status output of LOAD (70_reset_and_hazards.md R334). -/
inductive LoadStatus where
  /-- The ROM is in memory. -/
  | ok
  /-- The ROM is longer than `ROM_MAX`; LOAD changed nothing (R307). -/
  | romTooLarge
deriving DecidableEq, Repr

/-- The outputs of the last command. CORE keeps none of them (R153, R302); the model holds them because a step answers
a state only. DESIGN CHOICE (log 3). -/
structure Outputs where
  /-- The anomaly set of the STEP: bit 0 OutOfBounds, 1 UnknownOpcode, 2 StackUnderflow, 3 StackOverflow (R301). -/
  anom : BitVec 4
  /-- pc at the start of the STEP (R302). -/
  anomPc : Word
  /-- The word the STEP fetched, 0x0000 for a key-wait poll (R302). -/
  anomW : Word
  /-- The tone pulse of the TICK (R311). -/
  tone : Bool
  /-- The status of the LOAD (R334); `none` when the last command was no LOAD. -/
  status : Option LoadStatus
deriving DecidableEq, Repr

/-- No output: what each command starts from. The `none`/zero values outside their own command are a DESIGN CHOICE
(log 4). -/
def Outputs.empty : Outputs := { anom := 0, anomPc := 0, anomW := 0, tone := false, status := none }

/-- The complete state (R30). -/
structure State where
  /-- Memory, 4096 bytes (R80). -/
  mem : Memory
  /-- Data registers V0..VF (R31). -/
  V : Vector Byte 16
  /-- Index register (R36). -/
  I : Word
  /-- Program counter (R38). -/
  pc : Word
  /-- Call stack, `stack[sp-1]` the top; `sp` is its length (R40). -/
  stack : List Word
  /-- Delay timer (R42). -/
  DT : Byte
  /-- Sound timer (R42). -/
  ST : Byte
  /-- Framebuffer (R43). -/
  fb : Framebuffer
  /-- Redraw-requested flag (R44). -/
  redraw : Bool
  /-- Keypad state, `true` = pressed (R45). -/
  key : Vector Bool 16
  /-- Key-wait state: the register that waits for a key (R46). -/
  wait : Option Reg
  /-- The parameters of this CORE (R12); no command changes them. DESIGN CHOICE: held in State (log 1). -/
  params : Config.Params
  /-- The random bytes the host has put on the `rnd` input, oldest first (R19). DESIGN CHOICE (log 2). -/
  rndIn : List Byte
  /-- How many draws found no input byte and took a free value instead. DESIGN CHOICE (log 2). -/
  draws : Nat
  /-- The outputs of the last command (log 3). -/
  out : Outputs
deriving DecidableEq, Repr

/-- The state after power-on, for any parameters (70_reset_and_hazards.md R330, 10_state.md R50): memory as its
power-on contents, which is nothing listed. -/
def State.powerOn (p : Config.Params) : State where
  mem := []
  V := Vector.replicate 16 0
  I := 0
  pc := 0x200
  stack := []
  DT := 0
  ST := 0
  fb := Vector.replicate 32 (Vector.replicate 64 false)
  redraw := true
  key := Vector.replicate 16 false
  wait := none
  params := p
  rndIn := []
  draws := 0
  out := Outputs.empty

/-- The machine right after power-on with the default parameters (R330, R50, R11). -/
def State.reset : State := State.powerOn Config.Params.default

/-- Why a step stops with a fault. There is no such reason: CORE has no trap and never terminates
(60_exceptions.md R300), so the type has no constructor (log 8). -/
inductive Fault where
deriving DecidableEq, Repr

/-- Why a step has no meaning. -/
inductive Refusal where
  /-- Raised by an arm of `exec` whose instruction has no meaning yet; safe. No arm raises it now. -/
  | notModelled (mnemonic : String)
deriving DecidableEq, Repr

/-- What a meaning answers. -/
abbrev Result := Host.Outcome State Fault Refusal

end Sys2Proof.Machine
end

