-- ==== Sys2Proof/Machine/Ops.lean ====
section
/-! DEFINITION. The named operations over memory and state: bounded loops, the canonical memory list, the register and
field updates, the memory primitives of spec 00_scope.md R16, the anomaly report of R17 with its recovery, the call
stack, the framebuffer pixels and the random draw. -/

namespace Sys2Proof.Machine

/-! ## Loops -/

/-- `for k in 0..n-1` ascending: the loops of the spec's pseudocode (R18). -/
def forUp {σ : Type} : Nat → (Nat → σ → σ) → σ → σ
  | 0, _, a => a
  | n + 1, f, a => f n (forUp n f a)

/-! ## Memory -/

/-- `mask12(a)` (R15). -/
def mask12 (a : Nat) : Nat := a % Config.memSize

/-- What an unlisted address reads as: the power-on contents, the font at `FONT_BASE` and zero elsewhere (R330). -/
def unlisted (p : Config.Params) (a : Nat) : Byte :=
  if p.fontBase.val ≤ a then Config.font.getD (a - p.fontBase.val) 0 else 0

/-- The byte at an address. -/
def Memory.read (p : Config.Params) : Memory → Nat → Byte
  | [], a => unlisted p a
  | (k, v) :: rest, a => if a = k then v else Memory.read p rest a

/-- List the byte `b` at `a`, keeping the addresses rising. -/
def Memory.insert : Memory → Nat → Byte → Memory
  | [], a, b => [(a, b)]
  | (k, v) :: rest, a, b =>
    if a < k then (a, b) :: (k, v) :: rest
    else if a = k then (a, b) :: rest
    else (k, v) :: Memory.insert rest a b

/-- Stop listing the address `a`. -/
def Memory.erase (m : Memory) (a : Nat) : Memory := m.filter (fun c => c.1 != a)

/-- Store one byte: a byte equal to what the unlisted address reads as is not listed. -/
def Memory.write (p : Config.Params) (m : Memory) (a : Nat) (b : Byte) : Memory :=
  if b = unlisted p a then Memory.erase m a else Memory.insert m a b

/-- Store a list of bytes at rising addresses. -/
def Memory.writeList (p : Config.Params) (m : Memory) (a : Nat) : List Byte → Memory
  | [] => m
  | b :: bs => Memory.write p (Memory.writeList p m (a + 1) bs) a b

/-- The canonical form: addresses strictly rising and inside the address space, and no entry equal to what its address
reads as when unlisted. -/
abbrev Memory.wf (p : Config.Params) (m : Memory) : Prop :=
  m.Pairwise (fun c d => c.1 < d.1) ∧ ∀ c ∈ m, c.1 < Config.memSize ∧ c.2 ≠ unlisted p c.1

/-! ## Field updates (R14: `name <- v`) -/

/-- The register index of a small number, for loops over registers. -/
def regOfNat (k : Nat) : Reg := Fin.ofNat 16 k

/-- `V[x]` (R14). -/
def State.getV (s : State) (x : Reg) : Byte := s.V.get x

/-- `V[x] <- b` (R14). -/
def State.setV (s : State) (x : Reg) (b : Byte) : State := { s with V := s.V.set x b }

/-- `I <- w`. -/
def State.setI (s : State) (w : Word) : State := { s with I := w }

/-- `pc <- w` (R39: the type truncates to 16 bits). -/
def State.setPc (s : State) (w : Word) : State := { s with pc := w }

/-- Replace the call stack. -/
def State.setStack (s : State) (st : List Word) : State := { s with stack := st }

/-- `DT <- b`. -/
def State.setDT (s : State) (b : Byte) : State := { s with DT := b }

/-- `ST <- b`. -/
def State.setST (s : State) (b : Byte) : State := { s with ST := b }

/-- Replace the framebuffer. -/
def State.setFb (s : State) (fb : Framebuffer) : State := { s with fb := fb }

/-- `redraw <- b`. -/
def State.setRedraw (s : State) (b : Bool) : State := { s with redraw := b }

/-- Replace the keypad state. -/
def State.setKeys (s : State) (ks : Vector Bool 16) : State := { s with key := ks }

/-- `wait <- w`. -/
def State.setWait (s : State) (w : Option Reg) : State := { s with wait := w }

/-- Replace memory. -/
def State.setMem (s : State) (m : Memory) : State := { s with mem := m }

/-- Replace the outputs. -/
def State.setOut (s : State) (o : Outputs) : State := { s with out := o }

/-! ## The flag register -/

/-- `b2u` (R15). -/
def b2u (b : Bool) : Byte := if b then 1 else 0

/-- `V[0xF] <- b2u(b)`: a flag write (R33). -/
def State.setVF (s : State) (b : Bool) : State := s.setV 0xF (b2u b)

/-! ## Advancing pc (R143, R144) -/

/-- `advance`: `pc <- trunc16(pc + 2)` (R144). -/
def State.advance (s : State) : State := s.setPc (s.pc + 2)

/-- A conditional skip: pc + 4 if the condition holds, else pc + 2 (R143). -/
def State.skipIf (s : State) (c : Bool) : State := if c then s.setPc (s.pc + 4) else s.advance

/-! ## Anomalies: CORE's only exceptions (60_exceptions.md R300, R301) -/

/-- The anomalies of a STEP (R301). -/
inductive Anomaly where
  | outOfBounds
  | unknownOpcode
  | stackUnderflow
  | stackOverflow
deriving DecidableEq, Repr

/-- The bit of `anom` that an anomaly sets (R301). -/
def Anomaly.bit : Anomaly → Nat
  | .outOfBounds => 0
  | .unknownOpcode => 1
  | .stackUnderflow => 2
  | .stackOverflow => 3

/-- `report A` (R17, R302): A joins the anomaly set; nothing else changes. -/
def State.report (s : State) (A : Anomaly) : State :=
  s.setOut { s.out with anom := s.out.anom ||| BitVec.shiftLeft 1#4 A.bit }

/-- A is in the anomaly output of the last STEP. -/
def State.reported (s : State) (A : Anomaly) : Bool := s.out.anom.getLsbD A.bit

/-- The recovery of R304, R305 and R306: report the anomaly and go on as a no-op, pc + 2. -/
def State.recoverAsNop (s : State) (A : Anomaly) : State := (s.report A).advance

/-! ## Memory primitives (R16, R86) -/

/-- The out-of-range check of an address before masking (R86). -/
def State.checkAddr (s : State) (a : Nat) : State := if 0xFFF < a then s.report .outOfBounds else s

/-- The byte at `mask12(a)`. -/
def State.byteAt (s : State) (a : Nat) : Byte := Memory.read s.params s.mem (mask12 a)

/-- `MemRead(a, 1)` (R16). -/
def State.memRead (s : State) (a : Nat) : Byte × State := (s.byteAt a, s.checkAddr a)

/-- `MemWrite(a, 1, b)` (R16). -/
def State.memWrite (s : State) (a : Nat) (b : Byte) : State :=
  (s.checkAddr a).setMem (Memory.write s.params s.mem (mask12 a) b)

/-! ## The call stack (R40, R41) -/

/-- `sp`: the number of entries (R40). -/
def State.sp (s : State) : Nat := s.stack.length

/-- 2NNN's push and jump, or the rejected call (R182, R305). A stack of more than 16 entries, which no run reaches, is
full as well. -/
def State.pushAndJump (s : State) (target : Word) : State :=
  if s.sp < Config.stackDepth then (s.setStack (s.stack ++ [s.pc + 2])).setPc target
  else s.recoverAsNop .stackOverflow

/-- 00EE's pop, or the ignored return (R180, R304). -/
def State.popToPc (s : State) : State :=
  match s.stack.getLast? with
  | some target => (s.setStack s.stack.dropLast).setPc target
  | none => s.recoverAsNop .stackUnderflow

/-! ## Framebuffer pixels (R43) -/

/-- A pixel's row and column. -/
abbrev Pixel := Fin 32 × Fin 64

/-- `fb[y][x]`. -/
def Framebuffer.get (fb : Framebuffer) (p : Pixel) : Bool := (Vector.get fb p.1).get p.2

/-- `fb[y][x] <- b`. -/
def Framebuffer.set (fb : Framebuffer) (p : Pixel) (b : Bool) : Framebuffer :=
  Vector.set fb p.1 ((Vector.get fb p.1).set p.2 b)

/-- All 2048 pixels 0. -/
def Framebuffer.blank : Framebuffer := Vector.replicate 32 (Vector.replicate 64 false)

/-! ## Keypad (R45) -/

/-- `key[k]`. -/
def State.pressed (s : State) (k : Key) : Bool := s.key.get k

/-- The key indexes, lowest first. -/
def allKeys : List Key := [0, 1, 2, 3, 4, 5, 6, 7, 8, 9, 10, 11, 12, 13, 14, 15]

/-- The least pressed key, if any (R141). -/
def State.firstPressed (s : State) : Option Key := allKeys.find? s.pressed

/-! ## The random input (R19) -/

/-- `draw_rnd()`: the next byte of the input, or a free value where the host has given none. DESIGN CHOICE (log 2). -/
def State.drawRnd (s : State) : Byte × State :=
  match s.rndIn with
  | r :: rest => (r, { s with rndIn := rest })
  | [] => (Config.rndByte s.draws, { s with draws := s.draws + 1 })

end Sys2Proof.Machine
end

