-- ==== Sys2Proof/Machine/Operands.lean ====
section
/-! DEFINITION. The operand forms: immediates (30_encoding.md R113), effective addresses (43_index_memory.md R231), the
key index of the key tests (45_timers_keypad.md R273), the glyph address (R233), the decimal digits of FX33 (R234), and
the sprite geometry (44_display.md R251, R252). -/

namespace Sys2Proof.Machine

/-- `zext_16` of a 12-bit immediate (R113, R15). -/
def zextAddr (nnn : Addr) : Word := nnn.setWidth 16

/-- `zext_16` of a byte (R15). -/
def zextByte (b : Byte) : Word := b.setWidth 16

/-- `I + k` on unbounded integers, before masking (R231, R86). -/
def State.effAddr (s : State) (k : Nat) : Nat := s.I.toNat + k

/-- The out-of-range check of the `n` addresses from `I` up, in ascending order (R86, R87). -/
def State.checkBlock (s : State) (n : Nat) : State := forUp n (fun k t => t.checkAddr (t.effAddr k)) s

/-- The key a register selects: `vx & 0x0F` (R273). -/
def keyIndex (vx : Byte) : Key := (vx.extractLsb' 0 4).toFin

/-- `(I + vx) mod 4096` (R232). -/
def indexSum (i : Word) (vx : Byte) : Word := BitVec.ofNat 16 (mask12 (i.toNat + vx.toNat))

/-- `FONT_BASE + vx * 5` (R233). -/
def glyphAddr (p : Config.Params) (vx : Byte) : Word := BitVec.ofNat 16 (p.fontBase.val + vx.toNat * 5)

/-- `nnn + V0` (R183). -/
def jumpSum (nnn : Addr) (v0 : Byte) : Word := zextAddr nnn + zextByte v0

/-- `v div 100` (R234). -/
def hundreds (v : Byte) : Byte := BitVec.ofNat 8 (v.toNat / 100)

/-- `(v div 10) mod 10` (R234). -/
def tens (v : Byte) : Byte := BitVec.ofNat 8 (v.toNat / 10 % 10)

/-- `v mod 10` (R234). -/
def ones (v : Byte) : Byte := BitVec.ofNat 8 (v.toNat % 10)

/-- The start column `vx mod 64` (R251). -/
def startColumn (vx : Byte) : Nat := vx.toNat % Config.fbWidth

/-- The start row `vy mod 32` (R251). -/
def startRow (vy : Byte) : Nat := vy.toNat % Config.fbHeight

/-- Column `c` of a sprite row is bit `7 - c` of its byte (R251). -/
def spriteBit (row : Byte) (c : Nat) : Bool := row.getLsbD (7 - c)

/-- `place` of R252: the pixel of a sprite bit, `none` where it is not visible. Rows wrap modulo 32 (90_conflicts.md
C1). -/
def place (edge : Config.SpriteEdge) (ax ay : Nat) : Option Pixel :=
  match edge with
  | .wrap => some (⟨ay % 32, Nat.mod_lt _ (by decide)⟩, ⟨ax % 64, Nat.mod_lt _ (by decide)⟩)
  | .clip => if h : ax < 64 ∧ ay < 32 then some (⟨ay, h.2⟩, ⟨ax, h.1⟩) else none

end Sys2Proof.Machine
end

