-- ==== Sys2Proof/Machine/Cycle.lean ====
section
/-! DEFINITION. The parts of a STEP around the instruction (spec 40_engine_cycle.md R141, R142): the empty outputs it
starts from, the fetch, the key-wait poll and the execution of an UNKNOWN word; and the placing of an instruction where
the next fetch reads. -/

namespace Sys2Proof.Machine

/-- The start of a STEP: no anomaly, and `anom_pc` is pc (R142, R302). -/
def State.beginStep (s : State) : State := s.setOut { Outputs.empty with anomPc := s.pc }

/-- The state after the two `MemRead`s of a fetch (R84). -/
def State.fetchChecked (s : State) : State := ((s.memRead s.pc.toNat).2.memRead (s.pc.toNat + 1)).2

/-- The word at pc (R84). -/
def State.fetchWord (s : State) : Word :=
  wordOfBytes (s.memRead s.pc.toNat).1 ((s.memRead s.pc.toNat).2.memRead (s.pc.toNat + 1)).1

/-- The fetch of a STEP: the reads, and `anom_w` is the word (R84, R302). -/
def State.fetch (s : State) : State := s.fetchChecked.setOut { s.fetchChecked.out with anomW := s.fetchWord }

/-- The key-wait poll for the register `r` (R141): the least pressed key is captured; with none, nothing changes. -/
def State.poll (s : State) (r : Reg) : State :=
  match s.firstPressed with
  | some k => ((s.setV r (BitVec.ofNat 8 k.val)).setWait none).advance
  | none => s

/-- The execution of an UNKNOWN word (R306). -/
def execUnknown (s : State) : Result := .next (s.recoverAsNop .unknownOpcode)

/-- `s` in mode Running with the instruction word `w` stored where the next STEP fetches, high byte first (R83, R84). -/
def State.placeWord (s : State) (w : Word) : State :=
  let m := Memory.write s.params s.mem (mask12 s.pc.toNat) (highByte w)
  (s.setMem (Memory.write s.params m (mask12 (s.pc.toNat + 1)) (lowByte w))).setWait none

end Sys2Proof.Machine
end

