-- ==== Sys2Proof/Machine/Flags.lean ====
section
/-! DEFINITION. The flag computations, one for each flag writer of 10_state.md R33: carry (42_alu.md R206), no borrow
(R207, R209), the bit shifted out (R208, R210) and sprite collision (44_display.md R253). -/

namespace Sys2Proof.Machine

/-- Carry of `a + b`: the exact sum is above 255 (R206). -/
def carry (a b : Byte) : Bool := 255 < a.toNat + b.toNat

/-- No borrow of `a - b`: `a >= b` (R207, R209). -/
def noBorrow (a b : Byte) : Bool := b.toNat ≤ a.toNat

/-- The bit a right shift drops (R208). -/
def lowBit (a : Byte) : Bool := a.getLsbD 0

/-- The bit a left shift drops (R210). -/
def highBit (a : Byte) : Bool := a.getLsbD 7

/-- A framebuffer under a sprite draw, and whether a drawn pixel was set before its XOR. -/
structure Canvas where
  /-- The pixels. -/
  fb : Framebuffer
  /-- The collision flag so far. -/
  hit : Bool
deriving DecidableEq, Repr

/-- One set sprite bit: note a collision, then flip the pixel, unless it is not visible (R253). -/
def Canvas.flip (d : Canvas) (p : Option Pixel) : Canvas :=
  match p with
  | some q => { fb := Framebuffer.set d.fb q (!Framebuffer.get d.fb q), hit := d.hit || Framebuffer.get d.fb q }
  | none => d

/-- One sprite row at column `x0` of row `ay` (R253). -/
def Canvas.drawRow (edge : Config.SpriteEdge) (x0 ay : Nat) (row : Byte) (d : Canvas) : Canvas :=
  forUp 8 (fun c e => if spriteBit row c then e.flip (place edge (x0 + c) ay) else e) d

/-- The pixel loop of R253 over `n` rows; `rows r` is the byte of row r. -/
def Canvas.drawSprite (edge : Config.SpriteEdge) (x0 y0 n : Nat) (rows : Nat → Byte) (d : Canvas) : Canvas :=
  forUp n (fun r e => e.drawRow edge x0 (y0 + r) (rows r)) d

end Sys2Proof.Machine
end

