-- ==== Sys2Proof/Machine/Alu.lean ====
section
/-! DEFINITION. Register load and ALU instructions (spec 42_alu.md R200–R214). Every value is read before any write
(R144, R212), and a flag is written after the result (10_state.md R34). -/

namespace Sys2Proof.Machine

/-- Write a data result and advance. -/
def State.finish (s : State) (x : Reg) (result : Byte) : State := (s.setV x result).advance

/-- Write a result, then the flag, and advance (R34). -/
def State.finishWithFlag (s : State) (x : Reg) (result : Byte) (flag : Bool) : State :=
  ((s.setV x result).setVF flag).advance

/-- 6XNN (R200). -/
def execLdVxNn (x : Reg) (nn : Byte) (s : State) : Result := .next (s.finish x nn)

/-- 7XNN (R201): no flag. -/
def execAddVxNn (x : Reg) (nn : Byte) (s : State) : Result := .next (s.finish x (s.getV x + nn))

/-- 8XY0 (R202). -/
def execLdVxVy (x y : Reg) (s : State) : Result := .next (s.finish x (s.getV y))

/-- 8XY1 (R203): no flag. -/
def execOr (x y : Reg) (s : State) : Result := .next (s.finish x (s.getV x ||| s.getV y))

/-- 8XY2 (R204): no flag. -/
def execAnd (x y : Reg) (s : State) : Result := .next (s.finish x (s.getV x &&& s.getV y))

/-- 8XY3 (R205): no flag. -/
def execXor (x y : Reg) (s : State) : Result := .next (s.finish x (s.getV x ^^^ s.getV y))

/-- 8XY4 (R206): VF = carry. -/
def execAddVxVy (x y : Reg) (s : State) : Result :=
  .next (s.finishWithFlag x (s.getV x + s.getV y) (carry (s.getV x) (s.getV y)))

/-- 8XY5 (R207): VF = no borrow of vx - vy. -/
def execSub (x y : Reg) (s : State) : Result :=
  .next (s.finishWithFlag x (s.getV x - s.getV y) (noBorrow (s.getV x) (s.getV y)))

/-- 8XY6 (R208): VF = old bit 0 of vx; y is ignored (decision D7). -/
def execShr (x _y : Reg) (s : State) : Result :=
  .next (s.finishWithFlag x (s.getV x >>> 1) (lowBit (s.getV x)))

/-- 8XY7 (R209): VF = no borrow of vy - vx. -/
def execSubn (x y : Reg) (s : State) : Result :=
  .next (s.finishWithFlag x (s.getV y - s.getV x) (noBorrow (s.getV y) (s.getV x)))

/-- 8XYE (R210): VF = old bit 7 of vx; y is ignored (decision D7). -/
def execShl (x _y : Reg) (s : State) : Result :=
  .next (s.finishWithFlag x (s.getV x <<< 1) (highBit (s.getV x)))

/-- CXNN (R214): the random byte masked with nn. -/
def execRnd (x : Reg) (nn : Byte) (s : State) : Result := .next (s.drawRnd.2.finish x (s.drawRnd.1 &&& nn))

end Sys2Proof.Machine
end

