-- ==== Sys2Proof/Machine/ControlFlow.lean ====
section
/-! DEFINITION. Control flow instructions (spec 41_control_flow.md R180–R187). -/

namespace Sys2Proof.Machine

/-- 00EE (R180): return, or the ignored return on an empty stack. -/
def execRet (s : State) : Result := .next s.popToPc

/-- 1NNN (R181). -/
def execJp (nnn : Addr) (s : State) : Result := .next (s.setPc (zextAddr nnn))

/-- 2NNN (R182): call, or the rejected call on a full stack. -/
def execCall (nnn : Addr) (s : State) : Result := .next (s.pushAndJump (zextAddr nnn))

/-- BNNN (R183). -/
def execJpV0 (nnn : Addr) (s : State) : Result := .next (s.setPc (jumpSum nnn (s.getV 0)))

/-- 3XNN (R184). -/
def execSeVxNn (x : Reg) (nn : Byte) (s : State) : Result := .next (s.skipIf (s.getV x == nn))

/-- 4XNN (R185). -/
def execSneVxNn (x : Reg) (nn : Byte) (s : State) : Result := .next (s.skipIf (s.getV x != nn))

/-- 5XY0 (R186). -/
def execSeVxVy (x y : Reg) (s : State) : Result := .next (s.skipIf (s.getV x == s.getV y))

/-- 9XY0 (R187). -/
def execSneVxVy (x y : Reg) (s : State) : Result := .next (s.skipIf (s.getV x != s.getV y))

end Sys2Proof.Machine
end

