-- ==== Sys2Proof/Machine/Display.lean ====
section
/-! DEFINITION. Display instructions (spec 44_display.md R250–R253). -/

namespace Sys2Proof.Machine

/-- The canvas that DXYN leaves: the n bytes from I drawn at V[x], V[y] (R251, R253). The bytes are read apart from
the drawing, which writes no memory, and the coordinates before VF is cleared (decision D10). DEDUCED (log 10). -/
def State.sprite (s : State) (x y : Reg) (n : Nat) : Canvas :=
  Canvas.drawSprite s.params.edge (startColumn (s.getV x)) (startRow (s.getV y)) n
    (fun r => s.byteAt (s.effAddr r)) { fb := s.fb, hit := false }

/-- 00E0 (R250). -/
def execCls (s : State) : Result := .next ((s.setFb Framebuffer.blank).setRedraw true).advance

/-- DXYN (R253): every row's address is checked whatever the edge policy; VF is the collision. -/
def execDrw (x y : Reg) (n : Fin 16) (s : State) : Result :=
  .next ((((s.checkBlock n.val).setFb (s.sprite x y n.val).fb).setVF (s.sprite x y n.val).hit).setRedraw true).advance

end Sys2Proof.Machine
end

