-- ==== Sys2Proof/Machine/IndexMemory.lean ====
section
/-! DEFINITION. Index register, BCD and block transfer instructions (spec 43_index_memory.md R230–R236). -/

namespace Sys2Proof.Machine

/-- `MemWrite(I, hundreds); MemWrite(I + 1, tens); MemWrite(I + 2, ones)` (R234). -/
def State.storeDigits (s : State) (v : Byte) : State :=
  ((s.memWrite (s.effAddr 0) (hundreds v)).memWrite (s.effAddr 1) (tens v)).memWrite (s.effAddr 2) (ones v)

/-- V0..V[n-1] to memory at I, ascending (R235). -/
def State.storeRegs (s : State) (n : Nat) : State :=
  forUp n (fun k t => t.memWrite (t.effAddr k) (t.getV (regOfNat k))) s

/-- V0..V[n-1] from memory at I, ascending (R236). -/
def State.loadRegs (s : State) (n : Nat) : State :=
  forUp n (fun k t => (t.memRead (t.effAddr k)).2.setV (regOfNat k) (t.memRead (t.effAddr k)).1) s

/-- ANNN (R230). -/
def execLdI (nnn : Addr) (s : State) : Result := .next (s.setI (zextAddr nnn)).advance

/-- FX1E (R232): no flag, no anomaly. -/
def execAddIVx (x : Reg) (s : State) : Result := .next (s.setI (indexSum s.I (s.getV x))).advance

/-- FX29 (R233): the whole of vx selects. -/
def execLdFVx (x : Reg) (s : State) : Result := .next (s.setI (glyphAddr s.params (s.getV x))).advance

/-- FX33 (R234). -/
def execLdBVx (x : Reg) (s : State) : Result := .next (s.storeDigits (s.getV x)).advance

/-- FX55 (R235): I is not modified. -/
def execLdMemVx (x : Reg) (s : State) : Result := .next (s.storeRegs (x.val + 1)).advance

/-- FX65 (R236): I is not modified. -/
def execLdVxMem (x : Reg) (s : State) : Result := .next (s.loadRegs (x.val + 1)).advance

end Sys2Proof.Machine
end

