-- ==== Sys2Proof/Machine/TimersKeypad.lean ====
section
/-! DEFINITION. Timer and keypad instructions (spec 45_timers_keypad.md R270–R275). -/

namespace Sys2Proof.Machine

/-- FX07 (R270). -/
def execLdVxDt (x : Reg) (s : State) : Result := .next (s.setV x s.DT).advance

/-- FX15 (R271). -/
def execLdDtVx (x : Reg) (s : State) : Result := .next (s.setDT (s.getV x)).advance

/-- FX18 (R272): never emits the tone. -/
def execLdStVx (x : Reg) (s : State) : Result := .next (s.setST (s.getV x)).advance

/-- EX9E (R273). -/
def execSkp (x : Reg) (s : State) : Result := .next (s.skipIf (s.pressed (keyIndex (s.getV x))))

/-- EXA1 (R274). -/
def execSknp (x : Reg) (s : State) : Result := .next (s.skipIf (!s.pressed (keyIndex (s.getV x))))

/-- FX0A (R275): the mode becomes AwaitingKey and pc stays; the poll completes it later. -/
def execLdVxK (x : Reg) (s : State) : Result := .next (s.setWait (some x))

end Sys2Proof.Machine
end

