-- ==== Sys2Proof/Machine/Step.lean ====
section
/-! DEFINITION. The STEP command (spec 40_engine_cycle.md R141, R142), and the placing of one instruction for the next
STEP. -/

namespace Sys2Proof.Machine

/-- Execute what a word decodes to (R142). -/
def execDecoded (d : Decoded) (s : State) : Host.Outcome State Fault Refusal :=
  match d with
  | .instr i => exec i s
  | .unknown => execUnknown s

/-- One STEP: in mode AwaitingKey the key-wait poll (R141), in mode Running one fetch, decode and execution (R142). -/
def step (s : State) : Host.Outcome State Fault Refusal :=
  match s.wait with
  | some r => .next (s.beginStep.poll r)
  | none => execDecoded (decode s.beginStep.fetchWord) s.beginStep.fetch

/-- `s` with the instruction of a row of the opcode table stored where the next STEP fetches, in mode Running
(log 9). -/
def State.withFetchWord (s : State) (nbits w : Nat) : State := s.placeWord (tableWord nbits w)

end Sys2Proof.Machine
end

