-- ==== Sys2Proof/WellFormed.lean ====
section
/-! DEFINITION. What CORE's inputs must satisfy. An `Instr` needs no check: its operand types are the fields' widths.
The checks are of the raw inputs: a 16-bit word (30_encoding.md R116), a font base (00_scope.md R11) and a ROM
(70_reset_and_hazards.md R332). -/

namespace Sys2Proof.WellFormed

/-- The words that are no instruction, listed as 30_encoding.md R116 lists them, apart from the decoder. -/
def isUnknownWord (w : Word) : Bool :=
  let op := w.toNat / 0x1000
  let n := w.toNat % 0x10
  let nn := w.toNat % 0x100
  (op == 0x0 && w != 0x00E0 && w != 0x00EE)
  || (op == 0x5 && n != 0)
  || (op == 0x8 && [0x8, 0x9, 0xA, 0xB, 0xC, 0xD, 0xF].contains n)
  || (op == 0x9 && n != 0)
  || (op == 0xE && !([0x9E, 0xA1].contains nn))
  || (op == 0xF && !([0x07, 0x0A, 0x15, 0x18, 0x1E, 0x29, 0x33, 0x55, 0x65].contains nn))

/-- A word is an instruction of the opcode table. -/
def wordOk (w : Word) : Bool := !isUnknownWord w

/-- Parameters from a raw font base; a base outside 0x000..0x1B0 is refused (00_scope.md R11, decision D23). -/
def params? (fontBase : Nat) (edge : Config.SpriteEdge) : Option Config.Params :=
  if h : fontBase < Config.fontBaseMax + 1 then some { fontBase := ⟨fontBase, h⟩, edge := edge } else none

/-- A ROM that LOAD accepts (70_reset_and_hazards.md R332). -/
def romOk (rom : List Byte) : Bool := rom.length ≤ Config.romMax

end Sys2Proof.WellFormed
end

