-- ==== Sys2Proof/Machine/Commands.lean ====
section
/-! DEFINITION. The host's commands (spec 40_engine_cycle.md R140, R147–R149; 60_exceptions.md R310, R311;
70_reset_and_hazards.md R332, R335) and runs of them (00_scope.md R9). -/

namespace Sys2Proof.Machine

/-- The commands (R140). -/
inductive Command where
  /-- STEP with its random input. -/
  | step (rnd : Byte)
  | tick
  | load (rom : List Byte)
  | reset
  | setKeys (keys : BitVec 16)
  | setKey (k : Key) (p : Bool)
  | ackRedraw
deriving DecidableEq, Repr

/-- One timer down by one, never below 0 (R310, R312). -/
def countDown (t : Byte) : Byte := if t = 0 then 0 else t - 1

/-- TICK (R310): both timers count down; `tone` exactly when ST was 1 (R311). -/
def State.tick (s : State) : State :=
  ((s.setDT (countDown s.DT)).setST (countDown s.ST)).setOut { Outputs.empty with tone := s.ST == 1 }

/-- Every element at its reset value but memory, the parameters and the random input (R50, R332, R335; log 2). -/
def State.restart (s : State) (m : Memory) (o : Outputs) : State :=
  { State.powerOn s.params with mem := m, rndIn := s.rndIn, draws := s.draws, out := o }

/-- LOAD (R332): a ROM that does not fit changes nothing; one that fits is alone in memory beside the font. -/
def State.load (s : State) (rom : List Byte) : State :=
  if WellFormed.romOk rom then
    s.restart (Memory.writeList s.params [] Config.progBase rom) { Outputs.empty with status := some .ok }
  else s.setOut { Outputs.empty with status := some .romTooLarge }

/-- RESET (R335): the font is installed again, every other byte of memory stays. -/
def State.resetCommand (s : State) : State :=
  s.restart (Memory.writeList s.params s.mem s.params.fontBase.val Config.font) Outputs.empty

/-- SET_KEYS (R147): bit k of the vector is key k. -/
def State.setKeysCommand (s : State) (keys : BitVec 16) : State :=
  (s.setKeys (forUp 16 (fun k ks => ks.setIfInBounds k (keys.getLsbD k)) s.key)).setOut Outputs.empty

/-- SET_KEY (R148). -/
def State.setKeyCommand (s : State) (k : Key) (p : Bool) : State := (s.setKeys (s.key.set k p)).setOut Outputs.empty

/-- ACK_REDRAW (R149). -/
def State.ackRedraw (s : State) : State := (s.setRedraw false).setOut Outputs.empty

/-- What the rest of the random input is once the STEP that had `r` is over: `r` was of that STEP only (R19). -/
def restoreRnd (rest : List Byte) : Result → Result
  | .next t => .next { t with rndIn := rest }
  | .fault e => .fault e
  | .refused e => .refused e

/-- STEP with its random input: `r` is on the input for this STEP and gone after it, read or not (R140, R19). -/
def State.stepWith (s : State) (r : Byte) : Result := restoreRnd s.rndIn (step { s with rndIn := r :: s.rndIn })

/-- One command, an atomic transaction (R9). -/
def command (c : Command) (s : State) : Result :=
  match c with
  | .step r => s.stepWith r
  | .tick => .next s.tick
  | .load rom => .next (s.load rom)
  | .reset => .next s.resetCommand
  | .setKeys keys => .next (s.setKeysCommand keys)
  | .setKey k p => .next (s.setKeyCommand k p)
  | .ackRedraw => .next s.ackRedraw

/-- A sequence of commands, in the order the host issues them (R9). -/
def runCommands : List Command → State → Result
  | [], s => .next s
  | c :: cs, s =>
    match command c s with
    | .next t => runCommands cs t
    | .fault e => .fault e
    | .refused e => .refused e

end Sys2Proof.Machine
end

