-- ==== Sys2Proof/Machine/Ports.lean ====
section
/-! DEFINITION. The output ports, pure functions of the state (spec 40_engine_cycle.md R150–R153; 60_exceptions.md
R316). -/

namespace Sys2Proof.Machine

/-- The framebuffer port: 2048 pixels, row-major, top-left first (R150). -/
def State.framebufferPort (s : State) : List Bool := (s.fb.toList.map Vector.toList).flatten

/-- The redraw port (R151). -/
def State.redrawPort (s : State) : Bool := s.redraw

/-- The waiting port: 1 in mode AwaitingKey (R152). -/
def State.waitingPort (s : State) : Bool := s.wait.isSome

/-- What the diagnostic port shows beside memory (R316). -/
structure Diagnostic where
  pc : Word
  V : Vector Byte 16
  I : Word
  sp : Nat
  stack : List Word
  DT : Byte
  ST : Byte
  wait : Option Reg
deriving DecidableEq, Repr

/-- The diagnostic port (R316). -/
def State.diagnosticPort (s : State) : Diagnostic :=
  { pc := s.pc, V := s.V, I := s.I, sp := s.sp, stack := s.stack, DT := s.DT, ST := s.ST, wait := s.wait }

/-- The diagnostic read of one byte of memory, any address 0x000..0xFFF (R316). -/
def State.diagnosticByte (s : State) (a : Addr) : Byte := Memory.read s.params s.mem a.toNat

end Sys2Proof.Machine
end

