-- ==== Sys2Proof/Safety.lean ====
section
/-! DEFINITION. What the statements speak of: the invariant of every reachable state, a parked state, a run that
reports no anomaly, the encoding of an instruction, a run without a sound timer write, and the sprite bits that cover a
pixel. -/

namespace Sys2Proof.Machine

/-- The invariant of CORE: memory is canonical, the stack has at most 16 entries (10_state.md R40) and I is at most
0xFFF (R37). -/
structure State.Inv (s : State) : Prop where
  memoryCanonical : Memory.wf s.params s.mem
  stackBounded : s.sp ≤ Config.stackDepth
  indexBounded : s.I.toNat ≤ 0xFFF

/-- The bytes of memory as 10_state.md R30 sees them: the byte at each address 0x000..0xFFF. -/
def State.byte (s : State) (a : Addr) : Byte := Memory.read s.params s.mem a.toNat

/-- An address computed on unbounded integers, masked to 12 bits (20_memory.md R86). -/
def addr12 (a : Nat) : Addr := BitVec.ofNat 12 a

/-- `anom` with OutOfBounds, bit 0, added if the condition holds (60_exceptions.md R301, R302). -/
def withOutOfBounds (o : Outputs) (beyond : Bool) : Outputs :=
  { o with anom := if beyond then o.anom ||| 0b0001#4 else o.anom }

/-- Every element of the state but memory has the value of the table of 10_state.md R50. -/
structure State.HasResetValues (s : State) : Prop where
  registers : ∀ x, s.V.get x = 0
  index : s.I = 0
  programCounter : s.pc = 0x200
  stackEmpty : s.stack = []
  delayTimer : s.DT = 0
  soundTimer : s.ST = 0
  pixels : ∀ p, Framebuffer.get s.fb p = false
  redrawRequested : s.redraw = true
  keys : ∀ k, s.key.get k = false
  running : s.wait = none

/-- A parked state (70_reset_and_hazards.md R344): Running, and the word at pc is a jump to pc itself. -/
def State.parked (s : State) : Prop :=
  s.wait = none ∧ s.pc.toNat ≤ 0xFFE ∧ ∃ nnn : Addr, decode s.fetchWord = .instr (.jp nnn) ∧ nnn.toNat = s.pc.toNat

/-- The command runs and reports no anomaly (60_exceptions.md R302). -/
def cleanCommand (c : Command) (s : State) : Prop := ∃ t, command c s = .next t ∧ t.out.anom = 0

/-- The encoding of an instruction (30_encoding.md R114, R115): the words whose bits under `mask` are `value` are exactly
those that decode to the instruction `ins` makes of the word's fields. -/
def rowIs (mask value : Word) (ins : Word → Instr) : Prop := ∀ w, decode w = .instr (ins w) ↔ w &&& mask = value

/-- A run of commands in which only TICKs change ST (60_exceptions.md R311: no FX18 in between). -/
def onlyTicksChangeST : List Command → State → State → Prop
  | [], s, t => t = s
  | c :: cs, s, t => ∃ u, command c s = .next u ∧ (c ≠ .tick → u.ST = s.ST) ∧ onlyTicksChangeST cs u t

/-- Sprite bit (r, c) of `n` rows at `(x0, y0)`, bit 7 - c of row r, is set, visible and lands on the pixel `p` (44_display.md R251–R253). -/
def covers (edge : Config.SpriteEdge) (x0 y0 n : Nat) (rows : Nat → Byte) (p : Pixel) : Prop :=
  ∃ r < n, ∃ c < 8, (rows r).getLsbD (7 - c) = true ∧ place edge (x0 + c) (y0 + r) = some p

end Sys2Proof.Machine
end

