-- ==== Sys2Proof/Certificates/Slice0/Obligations.lean ====
section
/-! DEFINITION. The statements for the provers. Each speaks of every state, reachable or not, unless its docstring says
which invariant it assumes. An equation `exec i s = .next (… with …)` is a completion and a frame at once: every field
that the record does not name is the old one. `rowIs` is the encoding line of an instruction's rule. Rules are of
spec/. -/

open Sys2Proof Sys2Proof.Machine

/-! ## Power-on, LOAD, RESET and the host's other commands -/

/-- R50: the table of reset values holds after power-on, after a LOAD that fits and after RESET. -/
def Obligations.ResetValuesAfterPowerOnLoadReset : Prop :=
  (∀ p, (State.powerOn p).HasResetValues) ∧
  (∀ (s : State) rom, rom.length ≤ 3584 → ∃ t, command (.load rom) s = .next t ∧ t.HasResetValues) ∧
  (∀ (s : State), ∃ t, command .reset s = .next t ∧ t.HasResetValues)

/-- R330, R95: after power-on the font is at FONT_BASE, every other byte is 0, every other element has its reset value,
and the first word is UNKNOWN; the reset state is the power-on state with the default parameters; and the font, here and
in the statements of LOAD and RESET, is the table of R95, which the spec marks as not in its source (log 6). -/
def Obligations.PowerOnMemoryIsFontAndZero : Prop :=
  (∀ p : Config.Params, (State.powerOn p).HasResetValues ∧
    (∀ k < 80, some ((State.powerOn p).byte (addr12 (p.fontBase.val + k))) = Config.font[k]?) ∧
    (∀ a : Addr, a.toNat < p.fontBase.val ∨ p.fontBase.val + 80 ≤ a.toNat → (State.powerOn p).byte a = 0) ∧
    (State.powerOn p).fetchWord = 0 ∧ decode 0 = .unknown) ∧
  State.reset = State.powerOn { fontBase := 0x050, edge := .wrap } ∧
  Config.font =
    [0xF0, 0x90, 0x90, 0x90, 0xF0] ++ [0x20, 0x60, 0x20, 0x20, 0x70] ++ [0xF0, 0x10, 0xF0, 0x80, 0xF0] ++
    [0xF0, 0x10, 0xF0, 0x10, 0xF0] ++ [0x90, 0x90, 0xF0, 0x10, 0x10] ++ [0xF0, 0x80, 0xF0, 0x10, 0xF0] ++
    [0xF0, 0x80, 0xF0, 0x90, 0xF0] ++ [0xF0, 0x10, 0x20, 0x40, 0x40] ++ [0xF0, 0x90, 0xF0, 0x90, 0xF0] ++
    [0xF0, 0x90, 0xF0, 0x10, 0xF0] ++ [0xF0, 0x90, 0xF0, 0x90, 0x90] ++ [0xE0, 0x90, 0xE0, 0x90, 0xE0] ++
    [0xF0, 0x80, 0x80, 0x80, 0xF0] ++ [0xE0, 0x90, 0x90, 0x90, 0xE0] ++ [0xF0, 0x80, 0xF0, 0x80, 0xF0] ++
    [0xF0, 0x80, 0xF0, 0x80, 0x80]

/-- R332, R334: a ROM longer than 3584 bytes changes no state and answers RomTooLarge; any other is copied to 0x200,
with the font at FONT_BASE and every other byte 0, every other element at its reset value, and answers OK. -/
def Obligations.LoadInstallsRomOrChangesNothing : Prop :=
  ∀ (s : State) rom,
    (3584 < rom.length →
      ∃ o, command (.load rom) s = .next { s with out := o } ∧ o.status = some .romTooLarge) ∧
    (rom.length ≤ 3584 → ∃ t, command (.load rom) s = .next t ∧ t.HasResetValues ∧
      t.out.status = some .ok ∧ t.params = s.params ∧
      (∀ k < rom.length, some (t.byte (addr12 (0x200 + k))) = rom[k]?) ∧
      (∀ k < 80, some (t.byte (addr12 (s.params.fontBase.val + k))) = Config.font[k]?) ∧
      (∀ a : Addr, 0x200 + rom.length ≤ a.toNat → t.byte a = 0) ∧
      (∀ a : Addr, a.toNat < 0x200 → a.toNat < s.params.fontBase.val ∨ s.params.fontBase.val + 80 ≤ a.toNat →
        t.byte a = 0))

/-- R335: RESET installs the font, gives every other element its reset value and keeps every other byte of memory. -/
def Obligations.ResetKeepsMemoryOutsideFont : Prop :=
  ∀ (s : State), ∃ t, command .reset s = .next t ∧ t.HasResetValues ∧ t.params = s.params ∧
    (∀ k < 80, some (t.byte (addr12 (s.params.fontBase.val + k))) = Config.font[k]?) ∧
    (∀ a : Addr, a.toNat < s.params.fontBase.val ∨ s.params.fontBase.val + 80 ≤ a.toNat → t.byte a = s.byte a)

/-- R331: power-on, every LOAD that fits and RESET leave mode Running with no anomaly and no tone. -/
def Obligations.RunningWithoutOutputsAfterReset : Prop :=
  (∀ p, (State.powerOn p).wait = none ∧ (State.powerOn p).out.anom = 0 ∧ (State.powerOn p).out.tone = false) ∧
  (∀ (s t : State) c, command c s = .next t → c = .reset ∨ (∃ rom, rom.length ≤ 3584 ∧ c = .load rom) →
    t.wait = none ∧ t.out.anom = 0 ∧ t.out.tone = false)

/-- R147, R148, R149: the keypad commands store the keys and no other state, ACK_REDRAW clears redraw and no other
state, in every mode. -/
def Obligations.KeypadAndRedrawCommands : Prop :=
  (∀ (s : State) keys, ∃ ks o, command (.setKeys keys) s = .next { s with key := ks, out := o } ∧
    ∀ k : Key, ks.get k = keys.getLsbD k.val) ∧
  (∀ (s : State) k p, ∃ ks o, command (.setKey k p) s = .next { s with key := ks, out := o } ∧
    ∀ j : Key, ks.get j = if j = k then p else s.key.get j) ∧
  (∀ (s : State), ∃ o, command .ackRedraw s = .next { s with redraw := false, out := o })

/-- R310: TICK takes each timer down by one, never below 0, and writes nothing else; tone is 1 exactly when ST was 1. -/
def Obligations.TickCountsTimersDown : Prop :=
  ∀ (s : State), ∃ dt st o, command .tick s = .next { s with DT := dt, ST := st, out := o } ∧
    dt.toNat = s.DT.toNat - 1 ∧ st.toNat = s.ST.toNat - 1 ∧ (o.tone = true ↔ s.ST.toNat = 1)

/-- R311: only a TICK that moves ST from 1 to 0 emits the tone (so no FX18 does); and, as long as only TICKs change ST, a
TICK emits it exactly when it is the one whose number is the value ST had. -/
def Obligations.TonePulseOnlyOnLastTick : Prop :=
  (∀ c (s t : State), command c s = .next t → (t.out.tone = true ↔ c = .tick ∧ s.ST = 1)) ∧
  (∀ cs (s t u : State), onlyTicksChangeST cs s t → command .tick t = .next u →
    (u.out.tone = true ↔ s.ST.toNat = cs.count .tick + 1))

/-- Every command sequence runs to its end: no command faults or is refused (60_exceptions.md section 1). -/
def Obligations.EveryCommandSequenceCompletes : Prop :=
  ∀ cs (s : State), ∃ t, runCommands cs s = .next t

/-! ## The invariant -/

/-- The power-on state satisfies the invariant, whatever the parameters. -/
def Obligations.PowerOnSatisfiesInvariant : Prop :=
  (∀ p, (State.powerOn p).Inv) ∧ State.reset.Inv

/-- A STEP keeps the invariant: memory canonical, at most 16 stack entries, I at most 0xFFF (10_state.md sections 3, 5;
the canonical form is the model's, log 5). -/
def Obligations.StepKeepsInvariant : Prop :=
  ∀ (s t : State), s.Inv → step s = .next t → t.Inv

/-- Every command sequence keeps the invariant and the parameters, so every state that commands reach from power-on has
both: the stack and I bounds of 10_state.md sections 3 and 5, the canonical form of memory, which is the model's (log 5),
and the parameters, which the model holds in State (log 1). -/
def Obligations.CommandSequencesKeepInvariant : Prop :=
  ∀ cs (s t : State), s.Inv → runCommands cs s = .next t → t.Inv ∧ t.params = s.params

/-! ## Encoding -/

/-- Decoding the word of an instruction gives it back, with every operand at every value. -/
def Obligations.DecodeOfEncodeIsIdentity : Prop := ∀ i, decode (encode i) = .instr i

/-- A word that decodes to an instruction is that instruction's word: no bit of it is dropped. -/
def Obligations.EncodeOfDecodeIsIdentity : Prop := ∀ w i, decode w = .instr i → encode i = w

/-- R116, R306: the words that decode to UNKNOWN are exactly those of R116's list, and a STEP in mode Running whose word
is one of them reports UnknownOpcode, moves pc on by 2 and changes no other state. -/
def Obligations.UnknownWordsAreReportedNops : Prop :=
  (∀ w, decode w = .unknown ↔ WellFormed.isUnknownWord w = true) ∧
  (∀ (s : State), s.wait = none → WellFormed.isUnknownWord s.fetchWord = true →
    ∃ o, step s = .next { s with pc := s.pc + 2, out := o } ∧
      o.anom = (if 0xFFF ≤ s.pc.toNat then 0b0011#4 else 0b0010#4) ∧ o.anomPc = s.pc ∧ o.anomW = s.fetchWord)

/-- Words written out from the layouts of 30_encoding.md section 1 decode to the instructions they stand for. -/
def Obligations.SampleWordsDecode : Prop :=
  decode 0b0000_0000_1110_1110 = .instr .ret ∧
  decode 0b0010_1010_1011_1100 = .instr (.call 0xABC) ∧
  decode 0b0111_0011_1111_1110 = .instr (.addVxNn 3 0xFE) ∧
  decode 0b1000_1010_0101_0111 = .instr (.subn 0xA 5) ∧
  decode 0b1101_0001_0010_1111 = .instr (.drw 1 2 0xF) ∧
  decode 0b1110_1111_1010_0001 = .instr (.sknp 0xF) ∧
  decode 0b1111_0110_0101_0101 = .instr (.ldMemVx 6)

/-- A word placed for the next STEP is the word it fetches, in mode Running, whatever the state and pc (log 9); the
opcode table's numbering of a word is the word. -/
def Obligations.PlacedWordIsFetched : Prop :=
  (∀ (s : State) w, w < 65536 → (s.withFetchWord 16 w).fetchWord = BitVec.ofNat 16 w ∧ (s.withFetchWord 16 w).wait = none ∧
    (s.withFetchWord 16 w).pc = s.pc) ∧
  (∀ w i, w < 65536 → (decodeTableWord 16 w = some i ↔ decode (BitVec.ofNat 16 w) = .instr i))

/-! ## The STEP -/

/-- R142: in mode Running a STEP starts with no anomaly, fetches, and executes what the word decodes to at the state the
fetch left: the same state, but for the outputs of R302. -/
def Obligations.StepRunsDecodedInstruction : Prop :=
  ∀ (s : State), s.wait = none → ∃ o,
    o.anom = (if 0xFFF ≤ s.pc.toNat then 0b0001#4 else 0) ∧ o.anomPc = s.pc ∧ o.anomW = s.fetchWord ∧
    (∀ i, decode s.fetchWord = .instr i → step s = exec i { s with out := o }) ∧
    (decode s.fetchWord = .unknown → step s = execUnknown { s with out := o })

/-- R84: the fetched word is the byte at mask12(pc) and then the byte at mask12(pc + 1), big-endian; OutOfBounds is
reported if one of the two addresses is above 0xFFF, and nothing but the outputs changes. -/
def Obligations.FetchIsBigEndianAndMasked : Prop :=
  ∀ (s : State), s.fetchWord.toNat = 256 * (s.byte (addr12 s.pc.toNat)).toNat + (s.byte (addr12 (s.pc.toNat + 1))).toNat ∧
    s.fetch = { s with out := { withOutOfBounds s.out (0xFFF < s.pc.toNat || 0xFFF < s.pc.toNat + 1)
      with anomW := s.fetchWord } }

/-- R141, R275: FX0A starts the wait for V[x] and keeps pc, whatever keys are pressed. From then on every STEP is the
poll, which fetches nothing and reports nothing: it stores the least pressed key in the waiting register, ends the wait
and moves pc on by 2; with no key pressed nothing changes. -/
def Obligations.KeyWaitPollsForLeastPressedKey : Prop :=
  rowIs 0xF0FF 0xF00A (fun w => .ldVxK (Field.x w)) ∧
  (∀ (s : State) x, exec (.ldVxK x) s = .next { s with wait := some x }) ∧
  ∀ (s : State) r, s.wait = some r → ∃ o, o.anom = 0 ∧ o.anomPc = s.pc ∧ o.anomW = 0 ∧
    (∀ k : Key, s.key.get k = true → (∀ j < k, s.key.get j = false) →
      ∃ v, step s = .next { s with V := v, wait := none, pc := s.pc + 2, out := o } ∧
        ∀ x, v.get x = if x = r then BitVec.ofNat 8 k.val else s.V.get x) ∧
    ((∀ k : Key, s.key.get k = false) → step s = .next { s with out := o })

/-- The captured key is a key index, and while it stays pressed EX9E on the capturing register skips and EXA1 does not
(45_timers_keypad.md section 3). -/
def Obligations.CapturedKeyTestsPressed : Prop :=
  ∀ (s : State) r (t : State), s.wait = some r → step s = .next t → t.wait = none →
    (t.V.get r).toNat < 16 ∧ exec (.skp r) t = .next { t with pc := t.pc + 4 } ∧
    exec (.sknp r) t = .next { t with pc := t.pc + 2 }

/-- Which STEPs change the mode (60_exceptions.md sections 4, 5): from Running, exactly those of FX0A; from AwaitingKey,
exactly those that find a pressed key. -/
def Obligations.ModeChangesOnlyByKeyWait : Prop :=
  (∀ (s t : State), s.wait = none → step s = .next t → ∀ r, (t.wait = some r ↔ decode s.fetchWord = .instr (.ldVxK r))) ∧
  (∀ (s t : State) r, s.wait = some r → step s = .next t →
    (t.wait = none ∧ (∃ k, s.key.get k = true)) ∨ (t.wait = some r ∧ ∀ k, s.key.get k = false))

/-- What no STEP touches (40_engine_cycle.md section 2): DT but for FX15, ST but for FX18, the keypad, and redraw, which
only 00E0 and DXYN set and none clears. -/
def Obligations.StepLeavesTimersKeypadRedraw : Prop :=
  ∀ (s t : State), step s = .next t →
    t.key = s.key ∧ (s.redraw = true → t.redraw = true) ∧
    (t.DT ≠ s.DT → s.wait = none ∧ ∃ x, decode s.fetchWord = .instr (.ldDtVx x)) ∧
    (t.ST ≠ s.ST → s.wait = none ∧ ∃ x, decode s.fetchWord = .instr (.ldStVx x)) ∧
    (t.redraw ≠ s.redraw → s.wait = none ∧
      (decode s.fetchWord = .instr .cls ∨ ∃ x y n, decode s.fetchWord = .instr (.drw x y n)))

/-- When a STEP in mode Running reports OutOfBounds (60_exceptions.md section 2): the fetch reaches beyond 0xFFF, or the
sprite read, the BCD write or the block transfer does. -/
def Obligations.OutOfBoundsReportedExactly : Prop :=
  ∀ (s t : State), s.wait = none → step s = .next t →
    (t.out.anom.getLsbD 0 = true ↔ 0xFFF < s.pc.toNat + 1 ∨
      (∃ x y n, decode s.fetchWord = .instr (.drw x y n) ∧ 0 < n.val ∧ 0xFFF < s.I.toNat + n.val - 1) ∨
      (∃ x, decode s.fetchWord = .instr (.ldBVx x) ∧ 0xFFF < s.I.toNat + 2) ∨
      (∃ x, decode s.fetchWord = .instr (.ldMemVx x) ∧ 0xFFF < s.I.toNat + x.val) ∨
      (∃ x, decode s.fetchWord = .instr (.ldVxMem x) ∧ 0xFFF < s.I.toNat + x.val))

/-- R344: a STEP from a parked state leaves the state unchanged (its outputs apart). -/
def Obligations.ParkedStepLeavesStateUnchanged : Prop :=
  ∀ (s : State), s.parked → ∃ o, step s = .next { s with out := o } ∧ o.anom = 0

/-! ## Frames over all instructions -/

/-- R143: where each instruction, an UNKNOWN word and the poll leave pc, by class. A call speaks of the stacks that the
spec has, of at most 16 entries. -/
def Obligations.ProgramCounterByClass : Prop :=
  (∀ i (s t : State), exec i s = .next t →
    match i with
    | .jp nnn => t.pc.toNat = nnn.toNat
    | .jpV0 nnn => t.pc.toNat = nnn.toNat + (s.V.get 0).toNat
    | .call nnn => (s.stack.length < 16 → t.pc.toNat = nnn.toNat) ∧ (s.stack.length = 16 → t.pc = s.pc + 2)
    | .ret => if s.stack = [] then t.pc = s.pc + 2 else s.stack.getLast? = some t.pc
    | .seVxNn x nn => t.pc = if s.V.get x = nn then s.pc + 4 else s.pc + 2
    | .sneVxNn x nn => t.pc = if s.V.get x = nn then s.pc + 2 else s.pc + 4
    | .seVxVy x y => t.pc = if s.V.get x = s.V.get y then s.pc + 4 else s.pc + 2
    | .sneVxVy x y => t.pc = if s.V.get x = s.V.get y then s.pc + 2 else s.pc + 4
    | .skp x => t.pc = if s.key.get (Fin.ofNat 16 (s.V.get x).toNat) then s.pc + 4 else s.pc + 2
    | .sknp x => t.pc = if s.key.get (Fin.ofNat 16 (s.V.get x).toNat) then s.pc + 2 else s.pc + 4
    | .ldVxK _ => t.pc = s.pc
    | _ => t.pc = s.pc + 2) ∧
  (∀ (s t : State), execUnknown s = .next t → t.pc = s.pc + 2) ∧
  (∀ (s t : State) r, s.wait = some r → step s = .next t →
    ((∃ k, s.key.get k = true) → t.pc = s.pc + 2) ∧ ((∀ k, s.key.get k = false) → t.pc = s.pc))

/-- Which registers an instruction may change (10_state.md section 2): its destination V[x], V0..V[x] for FX65, and VF
for the six flag writers of R33; FX0A's register is written later, by the poll. -/
def Obligations.RegistersWrittenOnlyByDestinations : Prop :=
  ∀ i (s t : State) r, exec i s = .next t → t.V.get r ≠ s.V.get r →
    match i with
    | .ldVxNn x _ | .addVxNn x _ | .ldVxVy x _ | .or x _ | .and x _ | .xor x _ | .rnd x _ | .ldVxDt x => r = x
    | .addVxVy x _ | .sub x _ | .shr x _ | .subn x _ | .shl x _ => r = x ∨ r = 0xF
    | .drw _ _ _ => r = 0xF
    | .ldVxMem x => r ≤ x
    | _ => False

/-- Which bytes of memory an instruction may change (20_memory.md section 5): the three of FX33 and the x + 1 of FX55. -/
def Obligations.MemoryWrittenOnlyByStores : Prop :=
  ∀ i s t (a : Addr), exec i s = .next t → t.byte a ≠ s.byte a →
    match i with
    | .ldBVx _ => ∃ k < 3, a = addr12 (s.I.toNat + k)
    | .ldMemVx x => ∃ k ≤ x.val, a = addr12 (s.I.toNat + k)
    | _ => False

/-- Which instructions may change each other element of the state: I, the stack, the timers, the framebuffer and redraw,
the wait; none changes the keypad (10_state.md sections 3, 5 to 8) or the parameters (00_scope.md section 5; in State by
the model's choice, log 1); only CXNN uses the random input (00_scope.md section 6; the fields are the model's, log 2);
and of the outputs only the anomaly set changes, which never loses a member (60_exceptions.md section 1; held in State by
the model's choice, log 3). -/
def Obligations.OtherStateWrittenOnlyByItsWriters : Prop :=
  ∀ i (s t : State), exec i s = .next t →
    t.key = s.key ∧ t.params = s.params ∧
    (t.I ≠ s.I → (∃ nnn, i = .ldI nnn) ∨ (∃ x, i = .addIVx x) ∨ ∃ x, i = .ldFVx x) ∧
    (t.stack ≠ s.stack → i = .ret ∨ ∃ nnn, i = .call nnn) ∧
    (t.DT ≠ s.DT → ∃ x, i = .ldDtVx x) ∧
    (t.ST ≠ s.ST → ∃ x, i = .ldStVx x) ∧
    (t.fb ≠ s.fb ∨ t.redraw ≠ s.redraw → i = .cls ∨ ∃ x y n, i = .drw x y n) ∧
    (t.wait ≠ s.wait → ∃ x, i = .ldVxK x) ∧
    (t.rndIn ≠ s.rndIn ∨ t.draws ≠ s.draws → ∃ x nn, i = .rnd x nn) ∧
    t.out = { s.out with anom := t.out.anom } ∧ s.out.anom &&& t.out.anom = s.out.anom

/-! ## Control flow -/

/-- R180, R304: 00EE pops the top entry into pc; on an empty stack it reports StackUnderflow and moves on by 2. -/
def Obligations.ReturnPopsOrUnderflows : Prop :=
  rowIs 0xFFFF 0x00EE (fun _ => .ret) ∧
  (∀ (s : State) rest target, s.stack = rest ++ [target] → exec .ret s = .next { s with stack := rest, pc := target }) ∧
  (∀ (s : State), s.stack = [] →
    exec .ret s = .next { s with pc := s.pc + 2, out := { s.out with anom := s.out.anom ||| 0b0100#4 } })

/-- R182, R305: 2NNN pushes pc + 2 and jumps; with 16 entries it reports StackOverflow, pushes nothing and moves on
by 2. -/
def Obligations.CallPushesOrOverflows : Prop :=
  rowIs 0xF000 0x2000 (fun w => .call (Field.nnn w)) ∧
  (∀ (s : State) nnn,
     (s.stack.length < 16 → ∃ target : Word, target.toNat = nnn.toNat ∧
       exec (.call nnn) s = .next { s with stack := s.stack ++ [s.pc + 2], pc := target }) ∧
     (s.stack.length = 16 →
       exec (.call nnn) s = .next { s with pc := s.pc + 2, out := { s.out with anom := s.out.anom ||| 0b1000#4 } }))

/-- A call and the return at its target come back to the word after the call, with the stack as before, if the stack has
room (95_test_vectors.md section 1, S7). -/
def Obligations.CallThenReturnRestores : Prop :=
  ∀ (s : State) nnn, s.stack.length < 16 → ∃ t, exec (.call nnn) s = .next t ∧ exec .ret t = .next { s with pc := s.pc + 2 }

/-- R181, R183: 1NNN jumps to nnn, BNNN to nnn + V0, unmasked. -/
def Obligations.JumpsSetProgramCounter : Prop :=
  rowIs 0xF000 0x1000 (fun w => .jp (Field.nnn w)) ∧
  rowIs 0xF000 0xB000 (fun w => .jpV0 (Field.nnn w)) ∧
  (∀ (s : State) nnn, ∃ target : Word, target.toNat = nnn.toNat ∧ exec (.jp nnn) s = .next { s with pc := target }) ∧
  (∀ (s : State) nnn, ∃ target : Word, target.toNat = nnn.toNat + (s.V.get 0).toNat ∧
    exec (.jpV0 nnn) s = .next { s with pc := target })

/-- R184–R187: the four comparing skips move pc on by 4 if their condition holds, else by 2, and change nothing else. -/
def Obligations.ComparingSkips : Prop :=
  rowIs 0xF000 0x3000 (fun w => .seVxNn (Field.x w) (Field.nn w)) ∧
  rowIs 0xF000 0x4000 (fun w => .sneVxNn (Field.x w) (Field.nn w)) ∧
  rowIs 0xF00F 0x5000 (fun w => .seVxVy (Field.x w) (Field.y w)) ∧
  rowIs 0xF00F 0x9000 (fun w => .sneVxVy (Field.x w) (Field.y w)) ∧
  (∀ (s : State) x nn, exec (.seVxNn x nn) s = .next { s with pc := if s.V.get x = nn then s.pc + 4 else s.pc + 2 }) ∧
  (∀ (s : State) x nn, exec (.sneVxNn x nn) s = .next { s with pc := if s.V.get x ≠ nn then s.pc + 4 else s.pc + 2 }) ∧
  (∀ (s : State) x y, exec (.seVxVy x y) s = .next { s with pc := if s.V.get x = s.V.get y then s.pc + 4 else s.pc + 2 }) ∧
  (∀ (s : State) x y, exec (.sneVxVy x y) s = .next { s with pc := if s.V.get x ≠ s.V.get y then s.pc + 4 else s.pc + 2 })

/-! ## Register loads and the ALU. With x = F the flag is the last write (R34). -/

/-- R200, R202: load immediate and copy. -/
def Obligations.LoadImmediateAndCopy : Prop :=
  rowIs 0xF000 0x6000 (fun w => .ldVxNn (Field.x w) (Field.nn w)) ∧
  rowIs 0xF00F 0x8000 (fun w => .ldVxVy (Field.x w) (Field.y w)) ∧
  (∀ (s : State) x nn, ∃ v, exec (.ldVxNn x nn) s = .next { s with V := v, pc := s.pc + 2 } ∧
    ∀ r, v.get r = if r = x then nn else s.V.get r) ∧
  (∀ (s : State) x y, ∃ v, exec (.ldVxVy x y) s = .next { s with V := v, pc := s.pc + 2 } ∧
    ∀ r, v.get r = if r = x then s.V.get y else s.V.get r)

/-- 7XNN adds modulo 256; that it writes no flag is the spec's own inference (42_alu.md section 1, R201's [derived]). -/
def Obligations.AddImmediateWritesNoFlag : Prop :=
  rowIs 0xF000 0x7000 (fun w => .addVxNn (Field.x w) (Field.nn w)) ∧
  (∀ (s : State) x nn, ∃ v, exec (.addVxNn x nn) s = .next { s with V := v, pc := s.pc + 2 } ∧
    ∀ r, v.get r = if r = x then BitVec.ofNat 8 ((s.V.get x).toNat + nn.toNat) else s.V.get r)

/-- R203, R204, R205: the logic operations, bit by bit, without a flag. -/
def Obligations.LogicOperations : Prop :=
  rowIs 0xF00F 0x8001 (fun w => .or (Field.x w) (Field.y w)) ∧
  rowIs 0xF00F 0x8002 (fun w => .and (Field.x w) (Field.y w)) ∧
  rowIs 0xF00F 0x8003 (fun w => .xor (Field.x w) (Field.y w)) ∧
  (∀ (s : State) x y, ∃ v, exec (.or x y) s = .next { s with V := v, pc := s.pc + 2 } ∧
    (∀ k < 8, (v.get x).getLsbD k = ((s.V.get x).getLsbD k || (s.V.get y).getLsbD k)) ∧ ∀ r ≠ x, v.get r = s.V.get r) ∧
  (∀ (s : State) x y, ∃ v, exec (.and x y) s = .next { s with V := v, pc := s.pc + 2 } ∧
    (∀ k < 8, (v.get x).getLsbD k = ((s.V.get x).getLsbD k && (s.V.get y).getLsbD k)) ∧ ∀ r ≠ x, v.get r = s.V.get r) ∧
  (∀ (s : State) x y, ∃ v, exec (.xor x y) s = .next { s with V := v, pc := s.pc + 2 } ∧
    (∀ k < 8, (v.get x).getLsbD k = ((s.V.get x).getLsbD k != (s.V.get y).getLsbD k)) ∧ ∀ r ≠ x, v.get r = s.V.get r)

/-- R206: the sum modulo 256, VF = carry. -/
def Obligations.AddWithCarry : Prop :=
  rowIs 0xF00F 0x8004 (fun w => .addVxVy (Field.x w) (Field.y w)) ∧
  (∀ (s : State) x y, ∃ v, exec (.addVxVy x y) s = .next { s with V := v, pc := s.pc + 2 } ∧
     ∀ r, v.get r =
       if r = 0xF then (if 255 < (s.V.get x).toNat + (s.V.get y).toNat then 1 else 0)
       else if r = x then BitVec.ofNat 8 ((s.V.get x).toNat + (s.V.get y).toNat) else s.V.get r)

/-- R207, R209: the differences modulo 256, VF = no borrow. -/
def Obligations.SubtractionsWithNoBorrow : Prop :=
  rowIs 0xF00F 0x8005 (fun w => .sub (Field.x w) (Field.y w)) ∧
  rowIs 0xF00F 0x8007 (fun w => .subn (Field.x w) (Field.y w)) ∧
  (∀ (s : State) x y, ∃ v, exec (.sub x y) s = .next { s with V := v, pc := s.pc + 2 } ∧
    ∀ r, v.get r =
      if r = 0xF then (if (s.V.get y).toNat ≤ (s.V.get x).toNat then 1 else 0)
      else if r = x then BitVec.ofNat 8 ((s.V.get x).toNat + 256 - (s.V.get y).toNat) else s.V.get r) ∧
  (∀ (s : State) x y, ∃ v, exec (.subn x y) s = .next { s with V := v, pc := s.pc + 2 } ∧
    ∀ r, v.get r =
      if r = 0xF then (if (s.V.get x).toNat ≤ (s.V.get y).toNat then 1 else 0)
      else if r = x then BitVec.ofNat 8 ((s.V.get y).toNat + 256 - (s.V.get x).toNat) else s.V.get r)

/-- R208, R210: the shifts of V[x] by one, whatever y is, VF = the bit shifted out. -/
def Obligations.ShiftsByOne : Prop :=
  rowIs 0xF00F 0x8006 (fun w => .shr (Field.x w) (Field.y w)) ∧
  rowIs 0xF00F 0x800E (fun w => .shl (Field.x w) (Field.y w)) ∧
  (∀ (s : State) x y, ∃ v, exec (.shr x y) s = .next { s with V := v, pc := s.pc + 2 } ∧
    ∀ r, v.get r = if r = 0xF then BitVec.ofNat 8 ((s.V.get x).toNat % 2)
      else if r = x then BitVec.ofNat 8 ((s.V.get x).toNat / 2) else s.V.get r) ∧
  (∀ (s : State) x y, ∃ v, exec (.shl x y) s = .next { s with V := v, pc := s.pc + 2 } ∧
    ∀ r, v.get r = if r = 0xF then BitVec.ofNat 8 ((s.V.get x).toNat / 128)
      else if r = x then BitVec.ofNat 8 (2 * (s.V.get x).toNat) else s.V.get r)

/-- R214: a STEP of CXNN puts the random byte of that STEP, masked with nn, in V[x], for every byte. -/
def Obligations.RandomByteIsMasked : Prop :=
  rowIs 0xF000 0xC000 (fun w => .rnd (Field.x w) (Field.nn w)) ∧
  (∀ (s : State) x nn rnd, s.wait = none → decode s.fetchWord = .instr (.rnd x nn) →
    ∃ v o, command (.step rnd) s = .next { s with V := v, pc := s.pc + 2, out := o } ∧
      ∀ r, v.get r = if r = x then rnd &&& nn else s.V.get r)

/-- Where CXNN's byte comes from in the model (its choice, log 2): the next byte of the random input, or, with none, a
free value, about which nothing is known; it runs in either case (42_alu.md section 4: for every draw). -/
def Obligations.RandomDrawTakesInputOrFreeValue : Prop :=
  (∀ (s : State) x nn rnd rest, s.rndIn = rnd :: rest →
    ∃ v, exec (.rnd x nn) s = .next { s with V := v, pc := s.pc + 2, rndIn := rest } ∧
      ∀ r, v.get r = if r = x then rnd &&& nn else s.V.get r) ∧
  (∀ (s : State) x nn, s.rndIn = [] →
    ∃ v, exec (.rnd x nn) s = .next { s with V := v, pc := s.pc + 2, draws := s.draws + 1 } ∧
      ∀ r, v.get r = if r = x then Config.rndByte s.draws &&& nn else s.V.get r)

/-! ## Index register, BCD and block transfer -/

/-- R230, R232, R233: the three writers of I. -/
def Obligations.IndexRegisterWriters : Prop :=
  rowIs 0xF000 0xA000 (fun w => .ldI (Field.nnn w)) ∧
  rowIs 0xF0FF 0xF01E (fun w => .addIVx (Field.x w)) ∧
  rowIs 0xF0FF 0xF029 (fun w => .ldFVx (Field.x w)) ∧
  (∀ (s : State) nnn, ∃ i : Word, i.toNat = nnn.toNat ∧ exec (.ldI nnn) s = .next { s with I := i, pc := s.pc + 2 }) ∧
  (∀ (s : State) x, ∃ i : Word, i.toNat = (s.I.toNat + (s.V.get x).toNat) % 4096 ∧
    exec (.addIVx x) s = .next { s with I := i, pc := s.pc + 2 }) ∧
  (∀ (s : State) x, ∃ i : Word, i.toNat = s.params.fontBase.val + (s.V.get x).toNat * 5 ∧
    exec (.ldFVx x) s = .next { s with I := i, pc := s.pc + 2 })

/-- R234: the three decimal digits of V[x] at I, I + 1, I + 2 (masked), hundreds lowest; every other byte stays. -/
def Obligations.StoreDecimalDigits : Prop :=
  rowIs 0xF0FF 0xF033 (fun w => .ldBVx (Field.x w)) ∧
  (∀ (s : State) x, ∃ m, exec (.ldBVx x) s =
       .next { s with mem := m, pc := s.pc + 2, out := withOutOfBounds s.out (0xFFF < s.I.toNat + 2) } ∧
     let t : State := { s with mem := m }
     (t.byte (addr12 s.I.toNat)).toNat = (s.V.get x).toNat / 100 ∧
     (t.byte (addr12 (s.I.toNat + 1))).toNat = (s.V.get x).toNat / 10 % 10 ∧
     (t.byte (addr12 (s.I.toNat + 2))).toNat = (s.V.get x).toNat % 10 ∧
     ∀ a : Addr, (∀ k < 3, a ≠ addr12 (s.I.toNat + k)) → t.byte a = s.byte a)

/-- R235: V0..V[x] at I..I+x (masked); every other byte stays, and I. -/
def Obligations.StoreRegisterBlock : Prop :=
  rowIs 0xF0FF 0xF055 (fun w => .ldMemVx (Field.x w)) ∧
  (∀ (s : State) x, ∃ m, exec (.ldMemVx x) s =
       .next { s with mem := m, pc := s.pc + 2, out := withOutOfBounds s.out (0xFFF < s.I.toNat + x.val) } ∧
     let t : State := { s with mem := m }
     (∀ k : Reg, k ≤ x → t.byte (addr12 (s.I.toNat + k.val)) = s.V.get k) ∧
     ∀ a : Addr, (∀ k ≤ x.val, a ≠ addr12 (s.I.toNat + k)) → t.byte a = s.byte a)

/-- R236: V0..V[x] from I..I+x (masked); every other register stays, I and memory. -/
def Obligations.LoadRegisterBlock : Prop :=
  rowIs 0xF0FF 0xF065 (fun w => .ldVxMem (Field.x w)) ∧
  (∀ (s : State) x, ∃ v, exec (.ldVxMem x) s =
       .next { s with V := v, pc := s.pc + 2, out := withOutOfBounds s.out (0xFFF < s.I.toNat + x.val) } ∧
     ∀ r, v.get r = if r ≤ x then s.byte (addr12 (s.I.toNat + r.val)) else s.V.get r)

/-- FX55, then anything that keeps I and the stored bytes, then FX65 with the same x gives V0..V[x] their stored values
back (43_index_memory.md section 3). -/
def Obligations.StoreThenLoadRestoresRegisters : Prop :=
  ∀ (s : State) x (t u : State), exec (.ldMemVx x) s = .next t → u.I = t.I →
    (∀ k ≤ x.val, u.byte (addr12 (t.I.toNat + k)) = t.byte (addr12 (t.I.toNat + k))) →
    ∃ w, exec (.ldVxMem x) u = .next w ∧ ∀ k ≤ x, w.V.get k = s.V.get k

/-- A store is seen by the next fetch (20_memory.md section 6): if FX55 stores V[k] and V[k+1] over the word after it,
that word is what is fetched next. -/
def Obligations.StoredWordIsFetchedNext : Prop :=
  ∀ (s : State) (x k l : Reg) (t : State), exec (.ldMemVx x) s = .next t → l.val = k.val + 1 → l ≤ x →
    addr12 (s.I.toNat + k.val) = addr12 t.pc.toNat →
    t.fetchWord.toNat = 256 * (s.V.get k).toNat + (s.V.get l).toNat

/-- MemWrite then MemRead (20_memory.md section 6): the byte written is read back, every other byte is the old one, and
the canonical form is kept (log 5). -/
def Obligations.ReadAfterWrite : Prop :=
  ∀ (s : State) a b, ((s.memWrite a b).memRead a).1 = b ∧
    (∀ c, c % 4096 ≠ a % 4096 → ((s.memWrite a b).memRead c).1 = (s.memRead c).1) ∧
    (Memory.wf s.params s.mem → Memory.wf s.params (s.memWrite a b).mem)

/-- Canonical memories that read the same at every address are the same list (log 5). -/
def Obligations.CanonicalMemoryIsUnique : Prop :=
  ∀ p m m', Memory.wf p m → Memory.wf p m' → (∀ a < 4096, Memory.read p m a = Memory.read p m' a) → m = m'

/-! ## Display -/

/-- R250: 00E0 clears every pixel and sets redraw. -/
def Obligations.ClearScreen : Prop :=
  rowIs 0xFFFF 0x00E0 (fun _ => .cls) ∧
  (∀ (s : State), ∃ fb, exec .cls s = .next { s with fb := fb, redraw := true, pc := s.pc + 2 } ∧
     ∀ p, Framebuffer.get fb p = false)

/-- R253, R251: DXYN flips exactly the pixels that the sprite covers, under either edge policy, sets VF to whether one of them
was set, sets redraw, and reports OutOfBounds if a row's address is above 0xFFF, visible or not. The coordinates are
read before VF is written. -/
def Obligations.DrawSpriteFlipsCoveredPixels : Prop :=
  rowIs 0xF000 0xD000 (fun w => .drw (Field.x w) (Field.y w) (Field.n w)) ∧
  (∀ (s : State) x y n, ∃ fb v, exec (.drw x y n) s =
       .next { s with fb := fb, V := v, redraw := true, pc := s.pc + 2,
                      out := withOutOfBounds s.out (0 < n.val && 0xFFF < s.I.toNat + n.val - 1) } ∧
     let covered := covers s.params.edge ((s.V.get x).toNat % 64) ((s.V.get y).toNat % 32) n.val
       (fun r => s.byte (addr12 (s.I.toNat + r)))
     (∀ p, covered p → Framebuffer.get fb p = !Framebuffer.get s.fb p) ∧
     (∀ p, ¬ covered p → Framebuffer.get fb p = Framebuffer.get s.fb p) ∧
     (v.get 0xF = 1 ∨ v.get 0xF = 0) ∧
     (v.get 0xF = 1 ↔ ∃ p, covered p ∧ Framebuffer.get s.fb p = true) ∧
     ∀ r ≠ 0xF, v.get r = s.V.get r)

/-- Two draws of one sprite at the same coordinates restore the framebuffer; the second reports VF = 1 exactly when the
first set a pixel (44_display.md section 3). -/
def Obligations.DrawTwiceRestoresFramebuffer : Prop :=
  ∀ (s : State) x y n (t u : State), exec (.drw x y n) s = .next t → exec (.drw x y n) t = .next u →
    (t.V.get x).toNat % 64 = (s.V.get x).toNat % 64 → (t.V.get y).toNat % 32 = (s.V.get y).toNat % 32 →
    u.fb = s.fb ∧
    (u.V.get 0xF = 1 ↔ ∃ p, Framebuffer.get s.fb p = false ∧ Framebuffer.get t.fb p = true)

/-- R251, R252: where a sprite's bits are and where they go, in the functions DXYN calls: row r is the byte at I + r,
column c is bit 7 - c, the start is (vx mod 64, vy mod 32), and `place` puts a bit under wrap modulo 64 and 32, under clip
at its own coordinates, visible only inside the screen. -/
def Obligations.SpriteBitPlacement : Prop :=
  (∀ (s : State) r, s.effAddr r = s.I.toNat + r) ∧
  (∀ (row : Byte), ∀ c < 8, spriteBit row c = row.getLsbD (7 - c)) ∧
  (∀ vx, startColumn vx = vx.toNat % 64) ∧ (∀ vy, startRow vy = vy.toNat % 32) ∧
  ∀ ax ay (p : Pixel),
    (place .wrap ax ay = some p ↔ p.2.val = ax % 64 ∧ p.1.val = ay % 32) ∧
    (place .clip ax ay = some p ↔ p.2.val = ax ∧ p.1.val = ay) ∧
    (place .clip ax ay = none ↔ 64 ≤ ax ∨ 32 ≤ ay) ∧ place .wrap ax ay ≠ none

/-! ## Timers and keypad -/

/-- R270, R271, R272: the timer transfers; FX18 emits no tone. -/
def Obligations.TimerTransfers : Prop :=
  rowIs 0xF0FF 0xF007 (fun w => .ldVxDt (Field.x w)) ∧
  rowIs 0xF0FF 0xF015 (fun w => .ldDtVx (Field.x w)) ∧
  rowIs 0xF0FF 0xF018 (fun w => .ldStVx (Field.x w)) ∧
  (∀ (s : State) x, ∃ v, exec (.ldVxDt x) s = .next { s with V := v, pc := s.pc + 2 } ∧
    ∀ r, v.get r = if r = x then s.DT else s.V.get r) ∧
  (∀ (s : State) x, exec (.ldDtVx x) s = .next { s with DT := s.V.get x, pc := s.pc + 2 }) ∧
  (∀ (s : State) x, exec (.ldStVx x) s = .next { s with ST := s.V.get x, pc := s.pc + 2 })

/-- R273, R274: the key tests skip on the level state of the key that the low 4 bits of V[x] select. -/
def Obligations.KeyTestSkips : Prop :=
  rowIs 0xF0FF 0xE09E (fun w => .skp (Field.x w)) ∧
  rowIs 0xF0FF 0xE0A1 (fun w => .sknp (Field.x w)) ∧
  (∀ (s : State) x (k : Key), (s.V.get x).toNat % 16 = k.val →
    exec (.skp x) s = .next { s with pc := if s.key.get k = true then s.pc + 4 else s.pc + 2 }) ∧
  (∀ (s : State) x (k : Key), (s.V.get x).toNat % 16 = k.val →
    exec (.sknp x) s = .next { s with pc := if s.key.get k = false then s.pc + 4 else s.pc + 2 })

/-! ## Output ports -/

/-- R150, R151, R152: the framebuffer port is row-major with 2048 pixels, the redraw port is redraw, the waiting port is
1 in mode AwaitingKey. -/
def Obligations.OutputPortsShowState : Prop :=
  (∀ (s : State), s.framebufferPort.length = 2048 ∧
    ∀ (y : Fin 32) (x : Fin 64), s.framebufferPort[y.val * 64 + x.val]? = some (Framebuffer.get s.fb (y, x))) ∧
  (∀ (s : State), s.redrawPort = s.redraw ∧ (s.waitingPort = true ↔ s.wait ≠ none))
end

