-- ==== Sys2Proof/Laws/Loop.lean ====
section
/-! SUPPORT. The induction over a bounded loop, once. -/

namespace Sys2Proof.Machine

variable {σ : Type}

@[simp] theorem forUp_zero (f : Nat → σ → σ) (a : σ) : forUp 0 f a = a := rfl

theorem forUp_succ (n : Nat) (f : Nat → σ → σ) (a : σ) : forUp (n + 1) f a = f n (forUp n f a) := rfl

/-- A relation between the round and the loop's state, kept by every round. -/
theorem forUp_rec {P : Nat → σ → Prop} {f : Nat → σ → σ} {a : σ} (n : Nat) (h0 : P 0 a)
    (hs : ∀ k < n, ∀ b, P k b → P (k + 1) (f k b)) : P n (forUp n f a) := by
  induction n with
  | zero => exact h0
  | succ n ih => exact hs n (Nat.lt_succ_self n) _ (ih fun k hk => hs k (Nat.lt_succ_of_lt hk))

/-- A property that every round keeps. -/
theorem forUp_keeps {P : σ → Prop} {f : Nat → σ → σ} {a : σ} (n : Nat) (h0 : P a)
    (hs : ∀ k < n, ∀ b, P b → P (f k b)) : P (forUp n f a) :=
  forUp_rec (P := fun _ b => P b) n h0 hs

end Sys2Proof.Machine
end

