-- ==== Sys2Proof/Laws/Memory.lean ====
section
/-! SUPPORT. The laws of the memory list: read after write, other bytes kept, the canonical form kept, and canonical
lists that read the same are equal. -/

namespace Sys2Proof.Machine

variable (p : Config.Params)

theorem Memory.read_insert (m : Memory) (a c : Nat) (b : Byte) :
    Memory.read p (Memory.insert m a b) c = if c = a then b else Memory.read p m c := by
  induction m with
  | nil => simp [Memory.insert, Memory.read]
  | cons e rest ih =>
    obtain ⟨k, v⟩ := e
    simp only [Memory.insert]
    split
    · simp [Memory.read]
    · split
      · rename_i h; subst h; by_cases hc : c = a <;> simp [Memory.read, hc]
      · rename_i h1 h2
        simp only [Memory.read, ih]
        by_cases hk : c = k
        · subst hk
          have : c ≠ a := fun e => h2 e.symm
          simp [this]
        · simp [hk]

theorem Memory.read_erase (m : Memory) (a c : Nat) :
    Memory.read p (Memory.erase m a) c = if c = a then unlisted p a else Memory.read p m c := by
  induction m with
  | nil => by_cases h : c = a <;> simp [Memory.erase, Memory.read, h]
  | cons e rest ih =>
    obtain ⟨k, v⟩ := e
    simp only [Memory.erase] at ih
    by_cases hk : k = a
    · subst hk
      simp only [Memory.erase, List.filter_cons, bne_self_eq_false, Bool.false_eq_true, if_false, ih, Memory.read]
      by_cases hc : c = k <;> simp [hc]
    · simp only [Memory.erase, List.filter_cons, bne_iff_ne, ne_eq, hk, not_false_eq_true, if_true, Memory.read, ih]
      by_cases hc : c = k
      · subst hc; simp [hk]
      · simp [hc]

/-- One byte of memory after a write. -/
theorem Memory.read_write (m : Memory) (a c : Nat) (b : Byte) :
    Memory.read p (Memory.write p m a b) c = if c = a then b else Memory.read p m c := by
  unfold Memory.write
  split
  · rename_i h; rw [Memory.read_erase, h]
  · exact Memory.read_insert p m a c b

theorem Memory.mem_insert (m : Memory) (a : Nat) (b : Byte) (e : Host.Cell) (h : e ∈ Memory.insert m a b) :
    e = (a, b) ∨ e ∈ m := by
  induction m with
  | nil => simpa [Memory.insert] using h
  | cons d rest ih =>
    obtain ⟨k, v⟩ := d
    simp only [Memory.insert] at h
    split at h
    · simpa using h
    · split at h
      · simp only [List.mem_cons] at h ⊢; tauto
      · simp only [List.mem_cons] at h ⊢
        rcases h with h | h
        · exact .inr (.inl h)
        · rcases ih h with h | h <;> tauto

/-- A write inside the address space keeps the canonical form. -/
theorem Memory.write_wf (m : Memory) (a : Nat) (b : Byte) (ha : a < Config.memSize) (h : Memory.wf p m) :
    Memory.wf p (Memory.write p m a b) := by
  obtain ⟨hs, hm⟩ := h
  unfold Memory.write
  split
  · exact ⟨hs.filter _, fun c hc => hm c (List.mem_filter.mp hc).1⟩
  · rename_i hb
    refine ⟨?_, fun c hc => ?_⟩
    · clear hm
      induction m with
      | nil => simp [Memory.insert]
      | cons d rest ih =>
        obtain ⟨k, v⟩ := d
        rw [List.pairwise_cons] at hs
        simp only [Memory.insert]
        split
        · rename_i hlt
          refine List.pairwise_cons.mpr ⟨fun e he => ?_, List.pairwise_cons.mpr hs⟩
          rcases List.mem_cons.mp he with rfl | he
          · exact hlt
          · exact Nat.lt_trans hlt (hs.1 e he)
        · split
          · rename_i heq; subst heq; exact List.pairwise_cons.mpr hs
          · rename_i h1 h2
            refine List.pairwise_cons.mpr ⟨fun e he => ?_, ih hs.2⟩
            rcases Memory.mem_insert rest a b e he with rfl | he
            · exact Nat.lt_of_le_of_ne (Nat.le_of_not_lt h1) (fun e => h2 e.symm)
            · exact hs.1 e he
    · rcases Memory.mem_insert m a b c hc with rfl | hc
      · exact ⟨ha, hb⟩
      · exact hm c hc

/-- The empty list is canonical. -/
theorem Memory.nil_wf : Memory.wf p [] := by simp [Memory.wf]

/-- One byte after a list of bytes is stored. -/
theorem Memory.read_writeList (m : Memory) (a c : Nat) (bs : List Byte) :
    Memory.read p (Memory.writeList p m a bs) c
      = if a ≤ c ∧ c < a + bs.length then bs.getD (c - a) 0 else Memory.read p m c := by
  induction bs generalizing a with
  | nil =>
    have h : ¬ (a ≤ c ∧ c < a + ([] : List Byte).length) := by simp
    simp only [Memory.writeList, if_neg h]
  | cons b bs ih =>
    simp only [Memory.writeList, Memory.read_write, ih, List.length_cons]
    by_cases hc : c = a
    · subst hc; simp
    · by_cases h : a ≤ c ∧ c < a + (bs.length + 1)
      · have h' : a + 1 ≤ c ∧ c < a + 1 + bs.length := by omega
        obtain ⟨d, rfl⟩ : ∃ d, c = a + 1 + d := ⟨c - (a + 1), by omega⟩
        have e1 : a + 1 + d - (a + 1) = d := by omega
        have e2 : a + 1 + d - a = d + 1 := by omega
        simp only [if_neg hc, if_pos h, if_pos h', e1, e2, List.getD_cons_succ]
      · have h' : ¬ (a + 1 ≤ c ∧ c < a + 1 + bs.length) := by omega
        simp only [if_neg hc, if_neg h, if_neg h']

/-- Storing a list of bytes inside the address space keeps the canonical form. -/
theorem Memory.writeList_wf (m : Memory) (a : Nat) (bs : List Byte) (ha : a + bs.length ≤ Config.memSize)
    (h : Memory.wf p m) : Memory.wf p (Memory.writeList p m a bs) := by
  induction bs generalizing a with
  | nil => exact h
  | cons b bs ih =>
    simp only [List.length_cons] at ha
    exact Memory.write_wf p _ a b (by omega) (ih (a + 1) (by omega))

/-- A byte below every listed address reads as unlisted. -/
theorem Memory.read_below (m : Memory) (a : Nat) (h : ∀ e ∈ m, a < e.1) : Memory.read p m a = unlisted p a := by
  induction m with
  | nil => rfl
  | cons e rest ih =>
    have he := h e (List.mem_cons_self ..)
    simp only [Memory.read, if_neg (Nat.ne_of_lt he)]
    exact ih fun d hd => h d (List.mem_cons_of_mem _ hd)

theorem mask12_lt (a : Nat) : mask12 a < Config.memSize := Nat.mod_lt _ (by decide)

end Sys2Proof.Machine
end

