-- ==== Sys2Proof/Laws/State.lean ====
section
/-! SUPPORT. One lemma per field per update of State, true by rfl, and the laws of reading a register after a write. -/

namespace Sys2Proof.Machine

variable (s : State)

@[simp] theorem State.setV_mem (x : Reg) (b : Byte) : (s.setV x b).mem = s.mem := rfl
@[simp] theorem State.setV_V (x : Reg) (b : Byte) : (s.setV x b).V = s.V.set x b := rfl
@[simp] theorem State.setV_I (x : Reg) (b : Byte) : (s.setV x b).I = s.I := rfl
@[simp] theorem State.setV_pc (x : Reg) (b : Byte) : (s.setV x b).pc = s.pc := rfl
@[simp] theorem State.setV_stack (x : Reg) (b : Byte) : (s.setV x b).stack = s.stack := rfl
@[simp] theorem State.setV_DT (x : Reg) (b : Byte) : (s.setV x b).DT = s.DT := rfl
@[simp] theorem State.setV_ST (x : Reg) (b : Byte) : (s.setV x b).ST = s.ST := rfl
@[simp] theorem State.setV_fb (x : Reg) (b : Byte) : (s.setV x b).fb = s.fb := rfl
@[simp] theorem State.setV_redraw (x : Reg) (b : Byte) : (s.setV x b).redraw = s.redraw := rfl
@[simp] theorem State.setV_key (x : Reg) (b : Byte) : (s.setV x b).key = s.key := rfl
@[simp] theorem State.setV_wait (x : Reg) (b : Byte) : (s.setV x b).wait = s.wait := rfl
@[simp] theorem State.setV_params (x : Reg) (b : Byte) : (s.setV x b).params = s.params := rfl
@[simp] theorem State.setV_rndIn (x : Reg) (b : Byte) : (s.setV x b).rndIn = s.rndIn := rfl
@[simp] theorem State.setV_draws (x : Reg) (b : Byte) : (s.setV x b).draws = s.draws := rfl
@[simp] theorem State.setV_out (x : Reg) (b : Byte) : (s.setV x b).out = s.out := rfl

@[simp] theorem State.setI_mem (w : Word) : (s.setI w).mem = s.mem := rfl
@[simp] theorem State.setI_V (w : Word) : (s.setI w).V = s.V := rfl
@[simp] theorem State.setI_I (w : Word) : (s.setI w).I = w := rfl
@[simp] theorem State.setI_pc (w : Word) : (s.setI w).pc = s.pc := rfl
@[simp] theorem State.setI_stack (w : Word) : (s.setI w).stack = s.stack := rfl
@[simp] theorem State.setI_DT (w : Word) : (s.setI w).DT = s.DT := rfl
@[simp] theorem State.setI_ST (w : Word) : (s.setI w).ST = s.ST := rfl
@[simp] theorem State.setI_fb (w : Word) : (s.setI w).fb = s.fb := rfl
@[simp] theorem State.setI_redraw (w : Word) : (s.setI w).redraw = s.redraw := rfl
@[simp] theorem State.setI_key (w : Word) : (s.setI w).key = s.key := rfl
@[simp] theorem State.setI_wait (w : Word) : (s.setI w).wait = s.wait := rfl
@[simp] theorem State.setI_params (w : Word) : (s.setI w).params = s.params := rfl
@[simp] theorem State.setI_rndIn (w : Word) : (s.setI w).rndIn = s.rndIn := rfl
@[simp] theorem State.setI_draws (w : Word) : (s.setI w).draws = s.draws := rfl
@[simp] theorem State.setI_out (w : Word) : (s.setI w).out = s.out := rfl

@[simp] theorem State.setPc_mem (w : Word) : (s.setPc w).mem = s.mem := rfl
@[simp] theorem State.setPc_V (w : Word) : (s.setPc w).V = s.V := rfl
@[simp] theorem State.setPc_I (w : Word) : (s.setPc w).I = s.I := rfl
@[simp] theorem State.setPc_pc (w : Word) : (s.setPc w).pc = w := rfl
@[simp] theorem State.setPc_stack (w : Word) : (s.setPc w).stack = s.stack := rfl
@[simp] theorem State.setPc_DT (w : Word) : (s.setPc w).DT = s.DT := rfl
@[simp] theorem State.setPc_ST (w : Word) : (s.setPc w).ST = s.ST := rfl
@[simp] theorem State.setPc_fb (w : Word) : (s.setPc w).fb = s.fb := rfl
@[simp] theorem State.setPc_redraw (w : Word) : (s.setPc w).redraw = s.redraw := rfl
@[simp] theorem State.setPc_key (w : Word) : (s.setPc w).key = s.key := rfl
@[simp] theorem State.setPc_wait (w : Word) : (s.setPc w).wait = s.wait := rfl
@[simp] theorem State.setPc_params (w : Word) : (s.setPc w).params = s.params := rfl
@[simp] theorem State.setPc_rndIn (w : Word) : (s.setPc w).rndIn = s.rndIn := rfl
@[simp] theorem State.setPc_draws (w : Word) : (s.setPc w).draws = s.draws := rfl
@[simp] theorem State.setPc_out (w : Word) : (s.setPc w).out = s.out := rfl

@[simp] theorem State.setStack_mem (st : List Word) : (s.setStack st).mem = s.mem := rfl
@[simp] theorem State.setStack_V (st : List Word) : (s.setStack st).V = s.V := rfl
@[simp] theorem State.setStack_I (st : List Word) : (s.setStack st).I = s.I := rfl
@[simp] theorem State.setStack_pc (st : List Word) : (s.setStack st).pc = s.pc := rfl
@[simp] theorem State.setStack_stack (st : List Word) : (s.setStack st).stack = st := rfl
@[simp] theorem State.setStack_DT (st : List Word) : (s.setStack st).DT = s.DT := rfl
@[simp] theorem State.setStack_ST (st : List Word) : (s.setStack st).ST = s.ST := rfl
@[simp] theorem State.setStack_fb (st : List Word) : (s.setStack st).fb = s.fb := rfl
@[simp] theorem State.setStack_redraw (st : List Word) : (s.setStack st).redraw = s.redraw := rfl
@[simp] theorem State.setStack_key (st : List Word) : (s.setStack st).key = s.key := rfl
@[simp] theorem State.setStack_wait (st : List Word) : (s.setStack st).wait = s.wait := rfl
@[simp] theorem State.setStack_params (st : List Word) : (s.setStack st).params = s.params := rfl
@[simp] theorem State.setStack_rndIn (st : List Word) : (s.setStack st).rndIn = s.rndIn := rfl
@[simp] theorem State.setStack_draws (st : List Word) : (s.setStack st).draws = s.draws := rfl
@[simp] theorem State.setStack_out (st : List Word) : (s.setStack st).out = s.out := rfl

@[simp] theorem State.setDT_mem (b : Byte) : (s.setDT b).mem = s.mem := rfl
@[simp] theorem State.setDT_V (b : Byte) : (s.setDT b).V = s.V := rfl
@[simp] theorem State.setDT_I (b : Byte) : (s.setDT b).I = s.I := rfl
@[simp] theorem State.setDT_pc (b : Byte) : (s.setDT b).pc = s.pc := rfl
@[simp] theorem State.setDT_stack (b : Byte) : (s.setDT b).stack = s.stack := rfl
@[simp] theorem State.setDT_DT (b : Byte) : (s.setDT b).DT = b := rfl
@[simp] theorem State.setDT_ST (b : Byte) : (s.setDT b).ST = s.ST := rfl
@[simp] theorem State.setDT_fb (b : Byte) : (s.setDT b).fb = s.fb := rfl
@[simp] theorem State.setDT_redraw (b : Byte) : (s.setDT b).redraw = s.redraw := rfl
@[simp] theorem State.setDT_key (b : Byte) : (s.setDT b).key = s.key := rfl
@[simp] theorem State.setDT_wait (b : Byte) : (s.setDT b).wait = s.wait := rfl
@[simp] theorem State.setDT_params (b : Byte) : (s.setDT b).params = s.params := rfl
@[simp] theorem State.setDT_rndIn (b : Byte) : (s.setDT b).rndIn = s.rndIn := rfl
@[simp] theorem State.setDT_draws (b : Byte) : (s.setDT b).draws = s.draws := rfl
@[simp] theorem State.setDT_out (b : Byte) : (s.setDT b).out = s.out := rfl

@[simp] theorem State.setST_mem (b : Byte) : (s.setST b).mem = s.mem := rfl
@[simp] theorem State.setST_V (b : Byte) : (s.setST b).V = s.V := rfl
@[simp] theorem State.setST_I (b : Byte) : (s.setST b).I = s.I := rfl
@[simp] theorem State.setST_pc (b : Byte) : (s.setST b).pc = s.pc := rfl
@[simp] theorem State.setST_stack (b : Byte) : (s.setST b).stack = s.stack := rfl
@[simp] theorem State.setST_DT (b : Byte) : (s.setST b).DT = s.DT := rfl
@[simp] theorem State.setST_ST (b : Byte) : (s.setST b).ST = b := rfl
@[simp] theorem State.setST_fb (b : Byte) : (s.setST b).fb = s.fb := rfl
@[simp] theorem State.setST_redraw (b : Byte) : (s.setST b).redraw = s.redraw := rfl
@[simp] theorem State.setST_key (b : Byte) : (s.setST b).key = s.key := rfl
@[simp] theorem State.setST_wait (b : Byte) : (s.setST b).wait = s.wait := rfl
@[simp] theorem State.setST_params (b : Byte) : (s.setST b).params = s.params := rfl
@[simp] theorem State.setST_rndIn (b : Byte) : (s.setST b).rndIn = s.rndIn := rfl
@[simp] theorem State.setST_draws (b : Byte) : (s.setST b).draws = s.draws := rfl
@[simp] theorem State.setST_out (b : Byte) : (s.setST b).out = s.out := rfl

@[simp] theorem State.setFb_mem (f : Framebuffer) : (s.setFb f).mem = s.mem := rfl
@[simp] theorem State.setFb_V (f : Framebuffer) : (s.setFb f).V = s.V := rfl
@[simp] theorem State.setFb_I (f : Framebuffer) : (s.setFb f).I = s.I := rfl
@[simp] theorem State.setFb_pc (f : Framebuffer) : (s.setFb f).pc = s.pc := rfl
@[simp] theorem State.setFb_stack (f : Framebuffer) : (s.setFb f).stack = s.stack := rfl
@[simp] theorem State.setFb_DT (f : Framebuffer) : (s.setFb f).DT = s.DT := rfl
@[simp] theorem State.setFb_ST (f : Framebuffer) : (s.setFb f).ST = s.ST := rfl
@[simp] theorem State.setFb_fb (f : Framebuffer) : (s.setFb f).fb = f := rfl
@[simp] theorem State.setFb_redraw (f : Framebuffer) : (s.setFb f).redraw = s.redraw := rfl
@[simp] theorem State.setFb_key (f : Framebuffer) : (s.setFb f).key = s.key := rfl
@[simp] theorem State.setFb_wait (f : Framebuffer) : (s.setFb f).wait = s.wait := rfl
@[simp] theorem State.setFb_params (f : Framebuffer) : (s.setFb f).params = s.params := rfl
@[simp] theorem State.setFb_rndIn (f : Framebuffer) : (s.setFb f).rndIn = s.rndIn := rfl
@[simp] theorem State.setFb_draws (f : Framebuffer) : (s.setFb f).draws = s.draws := rfl
@[simp] theorem State.setFb_out (f : Framebuffer) : (s.setFb f).out = s.out := rfl

@[simp] theorem State.setRedraw_mem (b : Bool) : (s.setRedraw b).mem = s.mem := rfl
@[simp] theorem State.setRedraw_V (b : Bool) : (s.setRedraw b).V = s.V := rfl
@[simp] theorem State.setRedraw_I (b : Bool) : (s.setRedraw b).I = s.I := rfl
@[simp] theorem State.setRedraw_pc (b : Bool) : (s.setRedraw b).pc = s.pc := rfl
@[simp] theorem State.setRedraw_stack (b : Bool) : (s.setRedraw b).stack = s.stack := rfl
@[simp] theorem State.setRedraw_DT (b : Bool) : (s.setRedraw b).DT = s.DT := rfl
@[simp] theorem State.setRedraw_ST (b : Bool) : (s.setRedraw b).ST = s.ST := rfl
@[simp] theorem State.setRedraw_fb (b : Bool) : (s.setRedraw b).fb = s.fb := rfl
@[simp] theorem State.setRedraw_redraw (b : Bool) : (s.setRedraw b).redraw = b := rfl
@[simp] theorem State.setRedraw_key (b : Bool) : (s.setRedraw b).key = s.key := rfl
@[simp] theorem State.setRedraw_wait (b : Bool) : (s.setRedraw b).wait = s.wait := rfl
@[simp] theorem State.setRedraw_params (b : Bool) : (s.setRedraw b).params = s.params := rfl
@[simp] theorem State.setRedraw_rndIn (b : Bool) : (s.setRedraw b).rndIn = s.rndIn := rfl
@[simp] theorem State.setRedraw_draws (b : Bool) : (s.setRedraw b).draws = s.draws := rfl
@[simp] theorem State.setRedraw_out (b : Bool) : (s.setRedraw b).out = s.out := rfl

@[simp] theorem State.setKeys_mem (ks : Vector Bool 16) : (s.setKeys ks).mem = s.mem := rfl
@[simp] theorem State.setKeys_V (ks : Vector Bool 16) : (s.setKeys ks).V = s.V := rfl
@[simp] theorem State.setKeys_I (ks : Vector Bool 16) : (s.setKeys ks).I = s.I := rfl
@[simp] theorem State.setKeys_pc (ks : Vector Bool 16) : (s.setKeys ks).pc = s.pc := rfl
@[simp] theorem State.setKeys_stack (ks : Vector Bool 16) : (s.setKeys ks).stack = s.stack := rfl
@[simp] theorem State.setKeys_DT (ks : Vector Bool 16) : (s.setKeys ks).DT = s.DT := rfl
@[simp] theorem State.setKeys_ST (ks : Vector Bool 16) : (s.setKeys ks).ST = s.ST := rfl
@[simp] theorem State.setKeys_fb (ks : Vector Bool 16) : (s.setKeys ks).fb = s.fb := rfl
@[simp] theorem State.setKeys_redraw (ks : Vector Bool 16) : (s.setKeys ks).redraw = s.redraw := rfl
@[simp] theorem State.setKeys_key (ks : Vector Bool 16) : (s.setKeys ks).key = ks := rfl
@[simp] theorem State.setKeys_wait (ks : Vector Bool 16) : (s.setKeys ks).wait = s.wait := rfl
@[simp] theorem State.setKeys_params (ks : Vector Bool 16) : (s.setKeys ks).params = s.params := rfl
@[simp] theorem State.setKeys_rndIn (ks : Vector Bool 16) : (s.setKeys ks).rndIn = s.rndIn := rfl
@[simp] theorem State.setKeys_draws (ks : Vector Bool 16) : (s.setKeys ks).draws = s.draws := rfl
@[simp] theorem State.setKeys_out (ks : Vector Bool 16) : (s.setKeys ks).out = s.out := rfl

@[simp] theorem State.setWait_mem (w : Option Reg) : (s.setWait w).mem = s.mem := rfl
@[simp] theorem State.setWait_V (w : Option Reg) : (s.setWait w).V = s.V := rfl
@[simp] theorem State.setWait_I (w : Option Reg) : (s.setWait w).I = s.I := rfl
@[simp] theorem State.setWait_pc (w : Option Reg) : (s.setWait w).pc = s.pc := rfl
@[simp] theorem State.setWait_stack (w : Option Reg) : (s.setWait w).stack = s.stack := rfl
@[simp] theorem State.setWait_DT (w : Option Reg) : (s.setWait w).DT = s.DT := rfl
@[simp] theorem State.setWait_ST (w : Option Reg) : (s.setWait w).ST = s.ST := rfl
@[simp] theorem State.setWait_fb (w : Option Reg) : (s.setWait w).fb = s.fb := rfl
@[simp] theorem State.setWait_redraw (w : Option Reg) : (s.setWait w).redraw = s.redraw := rfl
@[simp] theorem State.setWait_key (w : Option Reg) : (s.setWait w).key = s.key := rfl
@[simp] theorem State.setWait_wait (w : Option Reg) : (s.setWait w).wait = w := rfl
@[simp] theorem State.setWait_params (w : Option Reg) : (s.setWait w).params = s.params := rfl
@[simp] theorem State.setWait_rndIn (w : Option Reg) : (s.setWait w).rndIn = s.rndIn := rfl
@[simp] theorem State.setWait_draws (w : Option Reg) : (s.setWait w).draws = s.draws := rfl
@[simp] theorem State.setWait_out (w : Option Reg) : (s.setWait w).out = s.out := rfl

@[simp] theorem State.setMem_mem (m : Memory) : (s.setMem m).mem = m := rfl
@[simp] theorem State.setMem_V (m : Memory) : (s.setMem m).V = s.V := rfl
@[simp] theorem State.setMem_I (m : Memory) : (s.setMem m).I = s.I := rfl
@[simp] theorem State.setMem_pc (m : Memory) : (s.setMem m).pc = s.pc := rfl
@[simp] theorem State.setMem_stack (m : Memory) : (s.setMem m).stack = s.stack := rfl
@[simp] theorem State.setMem_DT (m : Memory) : (s.setMem m).DT = s.DT := rfl
@[simp] theorem State.setMem_ST (m : Memory) : (s.setMem m).ST = s.ST := rfl
@[simp] theorem State.setMem_fb (m : Memory) : (s.setMem m).fb = s.fb := rfl
@[simp] theorem State.setMem_redraw (m : Memory) : (s.setMem m).redraw = s.redraw := rfl
@[simp] theorem State.setMem_key (m : Memory) : (s.setMem m).key = s.key := rfl
@[simp] theorem State.setMem_wait (m : Memory) : (s.setMem m).wait = s.wait := rfl
@[simp] theorem State.setMem_params (m : Memory) : (s.setMem m).params = s.params := rfl
@[simp] theorem State.setMem_rndIn (m : Memory) : (s.setMem m).rndIn = s.rndIn := rfl
@[simp] theorem State.setMem_draws (m : Memory) : (s.setMem m).draws = s.draws := rfl
@[simp] theorem State.setMem_out (m : Memory) : (s.setMem m).out = s.out := rfl

@[simp] theorem State.setOut_mem (o : Outputs) : (s.setOut o).mem = s.mem := rfl
@[simp] theorem State.setOut_V (o : Outputs) : (s.setOut o).V = s.V := rfl
@[simp] theorem State.setOut_I (o : Outputs) : (s.setOut o).I = s.I := rfl
@[simp] theorem State.setOut_pc (o : Outputs) : (s.setOut o).pc = s.pc := rfl
@[simp] theorem State.setOut_stack (o : Outputs) : (s.setOut o).stack = s.stack := rfl
@[simp] theorem State.setOut_DT (o : Outputs) : (s.setOut o).DT = s.DT := rfl
@[simp] theorem State.setOut_ST (o : Outputs) : (s.setOut o).ST = s.ST := rfl
@[simp] theorem State.setOut_fb (o : Outputs) : (s.setOut o).fb = s.fb := rfl
@[simp] theorem State.setOut_redraw (o : Outputs) : (s.setOut o).redraw = s.redraw := rfl
@[simp] theorem State.setOut_key (o : Outputs) : (s.setOut o).key = s.key := rfl
@[simp] theorem State.setOut_wait (o : Outputs) : (s.setOut o).wait = s.wait := rfl
@[simp] theorem State.setOut_params (o : Outputs) : (s.setOut o).params = s.params := rfl
@[simp] theorem State.setOut_rndIn (o : Outputs) : (s.setOut o).rndIn = s.rndIn := rfl
@[simp] theorem State.setOut_draws (o : Outputs) : (s.setOut o).draws = s.draws := rfl
@[simp] theorem State.setOut_out (o : Outputs) : (s.setOut o).out = o := rfl

/-- A vector read after a write at a number. -/
theorem vector_get_set_nat {α : Type} {n : Nat} (v : Vector α n) (i : Nat) (h : i < n) (y : Fin n) (a : α) :
    (v.set i a h).get y = if y.val = i then a else v.get y := by
  by_cases e : y.val = i
  · subst e; simp [Vector.get_eq_getElem]
  · have e' : i ≠ y.val := fun f => e f.symm
    simp [Vector.get_eq_getElem, e, Vector.getElem_set_ne _ _ e']

/-- A vector read after a write at an index. -/
theorem vector_get_set {α : Type} {n : Nat} (v : Vector α n) (x y : Fin n) (a : α) :
    (v.set x a).get y = if y = x then a else v.get y := by
  rw [vector_get_set_nat]; simp only [Fin.ext_iff]

@[simp] theorem vector_get_replicate {α : Type} {n : Nat} (a : α) (x : Fin n) : (Vector.replicate n a).get x = a := by
  simp [Vector.get_eq_getElem]

theorem State.getV_eq (x : Reg) : s.getV x = s.V.get x := rfl

theorem State.getV_setV (x y : Reg) (b : Byte) : (s.setV x b).getV y = if y = x then b else s.getV y :=
  vector_get_set _ _ _ _

@[simp] theorem State.getV_setV_same (x : Reg) (b : Byte) : (s.setV x b).getV x = b := by simp [State.getV_setV]

theorem State.V_get_setV (x r : Reg) (b : Byte) : (s.setV x b).V.get r = if r = x then b else s.V.get r :=
  vector_get_set _ _ _ _

theorem State.V_get_setVF (r : Reg) (c : Bool) : (s.setVF c).V.get r = if r = 0xF then b2u c else s.V.get r :=
  vector_get_set _ (0xF : Reg) _ _

/-- A data result, then a flag in VF: the flag wins in VF (R34). -/
theorem State.V_get_setV_setVF (x r : Reg) (b : Byte) (c : Bool) :
    ((s.setV x b).setVF c).V.get r = if r = 0xF then b2u c else if r = x then b else s.V.get r := by
  rw [State.V_get_setVF, State.V_get_setV]

/-- `b2u` of a comparison. -/
theorem b2u_decide (p : Prop) [Decidable p] : b2u (decide p) = if p then 1 else 0 := by
  by_cases h : p <;> simp [b2u, h]

@[simp] theorem State.regOfNat_val (k : Nat) : (regOfNat k).val = k % 16 := rfl

theorem State.regOfNat_of_val (x : Reg) : regOfNat x.val = x := Fin.ext (Nat.mod_eq_of_lt x.isLt)

end Sys2Proof.Machine
end

