-- ==== Sys2Proof/Laws/Operands.lean ====
section
/-! SUPPORT. The values of the operand forms and flags as numbers: masked addresses, zero-extended immediates, the index
sum, the glyph address, the key index, the digits and the byte arithmetic. -/

namespace Sys2Proof.Machine

/-! ## Addresses -/

/-- Masking an address and reading it as a 12-bit value are the same. -/
theorem toNat_ofNat12 (a : Nat) : (BitVec.ofNat 12 a).toNat = mask12 a := by
  simp [mask12, Config.memSize]

/-- Two addresses a small offset apart stay apart when masked. -/
theorem mask12_add_ne {i j k : Nat} (hj : j < 4096) (hk : k < 4096) (h : j ≠ k) : mask12 (i + j) ≠ mask12 (i + k) := by
  simp only [mask12, Config.memSize]; omega

/-! ## Immediates and computed addresses -/

@[simp] theorem zextAddr_toNat (nnn : Addr) : (zextAddr nnn).toNat = nnn.toNat := by
  have := nnn.isLt
  simp only [zextAddr, BitVec.toNat_setWidth]; omega

@[simp] theorem zextByte_toNat (b : Byte) : (zextByte b).toNat = b.toNat := by
  have := b.isLt
  simp only [zextByte, BitVec.toNat_setWidth]; omega

/-- BNNN's target never needs truncating (R183). -/
theorem jumpSum_toNat (nnn : Addr) (v0 : Byte) : (jumpSum nnn v0).toNat = nnn.toNat + v0.toNat := by
  have h1 := nnn.isLt
  have h2 := v0.isLt
  simp only [jumpSum, BitVec.toNat_add, zextAddr_toNat, zextByte_toNat]; omega

/-- FX1E's result (R232). -/
theorem indexSum_toNat (i : Word) (vx : Byte) : (indexSum i vx).toNat = (i.toNat + vx.toNat) % 4096 := by
  simp only [indexSum, BitVec.toNat_ofNat, mask12, Config.memSize]; omega

/-- FX29's result never needs masking (R233, R37). -/
theorem glyphAddr_toNat (p : Config.Params) (vx : Byte) : (glyphAddr p vx).toNat = p.fontBase.val + vx.toNat * 5 := by
  have h1 := p.fontBase.isLt
  have h2 := vx.isLt
  simp only [glyphAddr, BitVec.toNat_ofNat]; omega

/-- The key of the key tests is the low nibble (R273). -/
theorem keyIndex_val (vx : Byte) : (keyIndex vx).val = vx.toNat % 16 := by
  simp [keyIndex]

/-! ## Digits -/

theorem hundreds_toNat (v : Byte) : (hundreds v).toNat = v.toNat / 100 := by
  have := v.isLt
  simp only [hundreds, BitVec.toNat_ofNat]; omega

theorem tens_toNat (v : Byte) : (tens v).toNat = v.toNat / 10 % 10 := by
  simp only [tens, BitVec.toNat_ofNat]; omega

theorem ones_toNat (v : Byte) : (ones v).toNat = v.toNat % 10 := by
  simp only [ones, BitVec.toNat_ofNat]; omega

/-! ## Byte arithmetic as numbers (R211) -/

theorem byte_add_eq (a b : Byte) : a + b = BitVec.ofNat 8 (a.toNat + b.toNat) :=
  BitVec.eq_of_toNat_eq (by simp)

theorem byte_sub_eq (a b : Byte) : a - b = BitVec.ofNat 8 (a.toNat + 256 - b.toNat) := by
  have h := b.isLt
  refine BitVec.eq_of_toNat_eq ?_
  rw [BitVec.toNat_sub, BitVec.toNat_ofNat]
  congr 1; omega

theorem byte_shr_eq (a : Byte) : a >>> 1 = BitVec.ofNat 8 (a.toNat / 2) := by
  have := a.isLt
  refine BitVec.eq_of_toNat_eq ?_
  rw [BitVec.toNat_ushiftRight, BitVec.toNat_ofNat, Nat.shiftRight_eq_div_pow]; omega

theorem byte_shl_eq (a : Byte) : a <<< 1 = BitVec.ofNat 8 (2 * a.toNat) := by
  refine BitVec.eq_of_toNat_eq ?_
  rw [BitVec.toNat_shiftLeft, BitVec.toNat_ofNat, Nat.shiftLeft_eq, Nat.mul_comm]

/-- The bit a right shift drops, as a number (R208). -/
theorem b2u_lowBit (a : Byte) : b2u (lowBit a) = BitVec.ofNat 8 (a.toNat % 2) := by
  unfold lowBit
  rw [BitVec.getLsbD, Nat.testBit_zero, b2u_decide]
  rcases Nat.mod_two_eq_zero_or_one a.toNat with h | h <;> simp [h]

/-- The bit a left shift drops, as a number (R210). -/
theorem b2u_highBit (a : Byte) : b2u (highBit a) = BitVec.ofNat 8 (a.toNat / 128) := by
  have h := a.isLt
  unfold highBit
  rw [BitVec.getLsbD, Nat.testBit_eq_decide_div_mod_eq, b2u_decide]
  have : a.toNat / 2 ^ 7 < 2 := by omega
  rcases (show a.toNat / 2 ^ 7 = 0 ∨ a.toNat / 2 ^ 7 = 1 by omega) with e | e
  · rw [show (128 : Nat) = 2 ^ 7 from rfl, e]; rfl
  · rw [show (128 : Nat) = 2 ^ 7 from rfl, e]; rfl

end Sys2Proof.Machine
end

