-- ==== Sys2Proof/Laws/Ops.lean ====
section
/-! SUPPORT. One lemma per shared operation, saying once everything it does: the anomaly report, the address check, the
byte write, the block transfers, the stack, the keypad search, the random draw and the timers. -/

namespace Sys2Proof.Machine

variable (s : State)

/-! ## Reports -/

/-- A report changes the anomaly set only. -/
theorem State.report_eq (A : Anomaly) :
    s.report A = { s with out := { s.out with anom := s.out.anom ||| BitVec.shiftLeft 1#4 A.bit } } := rfl

/-- The check of an address changes the anomaly set only. -/
theorem State.checkAddr_eq (a : Nat) :
    s.checkAddr a = { s with out := { s.out with anom := if 0xFFF < a then s.out.anom ||| 1#4 else s.out.anom } } := by
  unfold State.checkAddr
  split <;> rfl

/-- Reporting one anomaly more than once is reporting it once (R302). -/
theorem anom_or_self (x : BitVec 4) : x ||| 1#4 ||| 1#4 = x ||| 1#4 := by rw [BitVec.or_assoc]; simp

/-- A report loses no member of the anomaly set (R302). -/
theorem anom_and_or (x y : BitVec 4) : x &&& (x ||| y) = x :=
  BitVec.eq_of_getLsbD_eq fun i hi => by rw [BitVec.getLsbD_and, BitVec.getLsbD_or]; cases x.getLsbD i <;> simp

/-- The checks of `n` addresses from I up report OutOfBounds exactly when the last is above 0xFFF. -/
theorem State.checkBlock_eq (n : Nat) :
    s.checkBlock n = { s with out := { s.out with
      anom := if 0 < n ∧ 0xFFF < s.I.toNat + n - 1 then s.out.anom ||| 1#4 else s.out.anom } } := by
  unfold State.checkBlock
  refine forUp_rec (P := fun k t => t = { s with out := { s.out with
      anom := if 0 < k ∧ 0xFFF < s.I.toNat + k - 1 then s.out.anom ||| 1#4 else s.out.anom } }) (a := s) n (by simp) ?_
  rintro k - _ rfl
  simp only [State.checkAddr_eq, State.effAddr]
  have e : s.I.toNat + (k + 1) - 1 = s.I.toNat + k := by omega
  by_cases h1 : 0xFFF < s.I.toNat + k
  · have h2 : 0 < k + 1 ∧ 0xFFF < s.I.toNat + (k + 1) - 1 := by omega
    by_cases h3 : 0 < k ∧ 0xFFF < s.I.toNat + k - 1
    · simp only [if_pos h1, if_pos h2, if_pos h3, anom_or_self]
    · simp only [if_pos h1, if_pos h2, if_neg h3]
  · have h2 : ¬ (0 < k + 1 ∧ 0xFFF < s.I.toNat + (k + 1) - 1) := by omega
    have h3 : ¬ (0 < k ∧ 0xFFF < s.I.toNat + k - 1) := by omega
    simp only [if_neg h1, if_neg h2, if_neg h3]

/-! ## Byte reads and writes -/

/-- A byte write changes memory at its masked address, and the anomaly set. -/
theorem State.memWrite_eq (a : Nat) (b : Byte) :
    s.memWrite a b = { s with
      mem := Memory.write s.params s.mem (mask12 a) b,
      out := { s.out with anom := if 0xFFF < a then s.out.anom ||| 1#4 else s.out.anom } } := by
  simp only [State.memWrite, State.checkAddr_eq]; rfl

/-! ## Block transfers -/

/-- The state after `n` registers are stored from I up (R235): memory holds them at the masked addresses, every other
byte is the old one, and only memory and the anomaly set change. -/
theorem State.storeRegs_eq (n : Nat) (hn : n ≤ 16) : ∃ m,
    s.storeRegs n = { s with
      mem := m,
      out := { s.out with
        anom := if 0 < n ∧ 0xFFF < s.I.toNat + n - 1 then s.out.anom ||| 1#4 else s.out.anom } } ∧
    (∀ k < n, Memory.read s.params m (mask12 (s.I.toNat + k)) = s.getV (regOfNat k)) ∧
    (∀ a, (∀ k < n, a ≠ mask12 (s.I.toNat + k)) → Memory.read s.params m a = Memory.read s.params s.mem a) ∧
    (Memory.wf s.params s.mem → Memory.wf s.params m) := by
  induction n with
  | zero => exact ⟨s.mem, by simp [State.storeRegs], by simp, fun _ _ => rfl, id⟩
  | succ n ih =>
    obtain ⟨m, he, hr, hk, hw⟩ := ih (by omega)
    refine ⟨Memory.write s.params m (mask12 (s.I.toNat + n)) (s.getV (regOfNat n)), ?_, ?_, ?_, ?_⟩
    · have step : s.storeRegs (n + 1)
          = (s.storeRegs n).memWrite ((s.storeRegs n).effAddr n) ((s.storeRegs n).getV (regOfNat n)) := rfl
      have e : s.I.toNat + (n + 1) - 1 = s.I.toNat + n := by omega
      rw [step, he, State.memWrite_eq]
      simp only [State.effAddr, State.getV]
      congr 2
      by_cases h1 : 0xFFF < s.I.toNat + n
      · have h2 : 0 < n + 1 ∧ 0xFFF < s.I.toNat + (n + 1) - 1 := by omega
        by_cases h3 : 0 < n ∧ 0xFFF < s.I.toNat + n - 1
        · simp only [if_pos h1, if_pos h2, if_pos h3, anom_or_self]
        · simp only [if_pos h1, if_pos h2, if_neg h3]
      · have h2 : ¬ (0 < n + 1 ∧ 0xFFF < s.I.toNat + (n + 1) - 1) := by omega
        have h3 : ¬ (0 < n ∧ 0xFFF < s.I.toNat + n - 1) := by omega
        simp only [if_neg h1, if_neg h2, if_neg h3]
    · intro k hkn
      rw [Memory.read_write]
      by_cases e : k = n
      · subst e; simp
      · rw [if_neg (mask12_add_ne (by omega) (by omega) e), hr k (by omega)]
    · intro a ha
      rw [Memory.read_write, if_neg (ha n (by omega)), hk a fun k hkn => ha k (by omega)]
    · exact fun h => Memory.write_wf _ _ _ _ (mask12_lt _) (hw h)

/-- The state after `n` registers are loaded from I up (R236): only they and the anomaly set change. -/
theorem State.loadRegs_eq (n : Nat) (hn : n ≤ 16) : ∃ v,
    s.loadRegs n = { s with
      V := v,
      out := { s.out with
        anom := if 0 < n ∧ 0xFFF < s.I.toNat + n - 1 then s.out.anom ||| 1#4 else s.out.anom } } ∧
    ∀ r : Reg, v.get r = if r.val < n then s.byteAt (s.I.toNat + r.val) else s.V.get r := by
  induction n with
  | zero => exact ⟨s.V, by simp [State.loadRegs], by simp⟩
  | succ n ih =>
    obtain ⟨v, he, hv⟩ := ih (by omega)
    refine ⟨v.set (regOfNat n) (s.byteAt (s.I.toNat + n)), ?_, ?_⟩
    · have step : s.loadRegs (n + 1) = ((s.loadRegs n).memRead ((s.loadRegs n).effAddr n)).2.setV (regOfNat n)
          ((s.loadRegs n).memRead ((s.loadRegs n).effAddr n)).1 := rfl
      have e : s.I.toNat + (n + 1) - 1 = s.I.toNat + n := by omega
      rw [step, he]
      simp only [State.effAddr, State.memRead, State.checkAddr_eq, State.setV, State.byteAt]
      congr 2
      by_cases h1 : 0xFFF < s.I.toNat + n
      · have h2 : 0 < n + 1 ∧ 0xFFF < s.I.toNat + (n + 1) - 1 := by omega
        by_cases h3 : 0 < n ∧ 0xFFF < s.I.toNat + n - 1
        · simp only [if_pos h1, if_pos h2, if_pos h3, anom_or_self]
        · simp only [if_pos h1, if_pos h2, if_neg h3]
      · have h2 : ¬ (0 < n + 1 ∧ 0xFFF < s.I.toNat + (n + 1) - 1) := by omega
        have h3 : ¬ (0 < n ∧ 0xFFF < s.I.toNat + n - 1) := by omega
        simp only [if_neg h1, if_neg h2, if_neg h3]
    · intro r
      have hm : n % 16 = n := Nat.mod_eq_of_lt (by omega)
      rw [vector_get_set, hv]
      by_cases e : r = regOfNat n
      · have e' : r.val = n := by rw [e, State.regOfNat_val, hm]
        simp [e, hm]
      · have e' : r.val ≠ n := fun h => e (Fin.ext (by rw [State.regOfNat_val, hm, h]))
        have : (r.val < n + 1) = (r.val < n) := by simp only [eq_iff_iff]; omega
        simp only [if_neg e, this]

/-- The state after the three digits are stored (R234). -/
theorem State.storeDigits_eq (v : Byte) : ∃ m,
    s.storeDigits v = { s with
      mem := m,
      out := { s.out with anom := if 0xFFF < s.I.toNat + 2 then s.out.anom ||| 1#4 else s.out.anom } } ∧
    Memory.read s.params m (mask12 s.I.toNat) = hundreds v ∧
    Memory.read s.params m (mask12 (s.I.toNat + 1)) = tens v ∧
    Memory.read s.params m (mask12 (s.I.toNat + 2)) = ones v ∧
    (∀ a, (∀ k < 3, a ≠ mask12 (s.I.toNat + k)) → Memory.read s.params m a = Memory.read s.params s.mem a) ∧
    (Memory.wf s.params s.mem → Memory.wf s.params m) := by
  have d01 : mask12 s.I.toNat ≠ mask12 (s.I.toNat + 1) := mask12_add_ne (j := 0) (by omega) (by omega) (by omega)
  have d02 : mask12 s.I.toNat ≠ mask12 (s.I.toNat + 2) := mask12_add_ne (j := 0) (by omega) (by omega) (by omega)
  have d12 : mask12 (s.I.toNat + 1) ≠ mask12 (s.I.toNat + 2) := mask12_add_ne (by omega) (by omega) (by omega)
  refine ⟨Memory.write s.params (Memory.write s.params (Memory.write s.params s.mem (mask12 s.I.toNat) (hundreds v))
      (mask12 (s.I.toNat + 1)) (tens v)) (mask12 (s.I.toNat + 2)) (ones v), ?_, ?_, ?_, ?_, fun a ha => ?_, fun h => ?_⟩
  · simp only [State.storeDigits, State.memWrite_eq, State.effAddr, Nat.add_zero]
    congr 2
    by_cases h0 : 0xFFF < s.I.toNat
    · have h1 : 0xFFF < s.I.toNat + 1 := by omega
      have h2 : 0xFFF < s.I.toNat + 2 := by omega
      simp only [if_pos h0, if_pos h1, if_pos h2, anom_or_self]
    · by_cases h1 : 0xFFF < s.I.toNat + 1
      · have h2 : 0xFFF < s.I.toNat + 2 := by omega
        simp only [if_neg h0, if_pos h1, if_pos h2, anom_or_self]
      · simp only [if_neg h0, if_neg h1]
  · simp only [Memory.read_write, if_neg d01, if_neg d02, if_true]
  · simp only [Memory.read_write, if_neg d12, if_true]
  · simp only [Memory.read_write, if_true]
  · have h0 : a ≠ mask12 s.I.toNat := ha 0 (by omega)
    simp only [Memory.read_write, if_neg (ha 2 (by omega)), if_neg (ha 1 (by omega)), if_neg h0]
  · exact Memory.write_wf _ _ _ _ (mask12_lt _) (Memory.write_wf _ _ _ _ (mask12_lt _)
      (Memory.write_wf _ _ _ _ (mask12_lt _) h))

/-! ## The fetched word -/

/-- The fetched word is the bytes at pc and pc + 1, the high byte first (R84). -/
theorem State.fetchWord_eq : s.fetchWord = wordOfBytes (s.byteAt s.pc.toNat) (s.byteAt (s.pc.toNat + 1)) := by
  simp only [State.fetchWord, State.memRead, State.byteAt, State.checkAddr_eq]

/-- The fetched word depends on memory, the parameters and pc only. -/
theorem State.fetchWord_congr {s t : State} (hm : t.mem = s.mem) (hp : t.params = s.params) (hc : t.pc = s.pc) :
    t.fetchWord = s.fetchWord := by
  simp only [State.fetchWord_eq, State.byteAt, hm, hp, hc]

/-! ## Stack -/

/-- What a return does on an empty stack (R304). -/
theorem State.popToPc_nil (h : s.stack = []) : s.popToPc = s.recoverAsNop .stackUnderflow := by
  simp [State.popToPc, h]

/-- What a return does on a stack with a top (R180). -/
theorem State.popToPc_concat (rest : List Word) (target : Word) (h : s.stack = rest ++ [target]) :
    s.popToPc = { s with stack := rest, pc := target } := by
  simp [State.popToPc, h, State.setStack, State.setPc]

/-- Everything a return can do. -/
theorem State.popToPc_cases :
    (s.stack = [] ∧ s.popToPc = s.recoverAsNop .stackUnderflow) ∨
    (∃ rest target, s.stack = rest ++ [target] ∧ s.popToPc = { s with stack := rest, pc := target }) := by
  rcases List.eq_nil_or_concat s.stack with h | ⟨rest, target, h⟩
  · exact .inl ⟨h, s.popToPc_nil h⟩
  · rw [List.concat_eq_append] at h
    exact .inr ⟨rest, target, h, s.popToPc_concat rest target h⟩

/-- Everything a call can do. -/
theorem State.pushAndJump_cases (w : Word) :
    (s.stack.length < 16 ∧ s.pushAndJump w = { s with stack := s.stack ++ [s.pc + 2], pc := w }) ∨
    (16 ≤ s.stack.length ∧ s.pushAndJump w = s.recoverAsNop .stackOverflow) := by
  by_cases h : s.stack.length < 16
  · exact .inl ⟨h, by simp [State.pushAndJump, State.sp, Config.stackDepth, h, State.setStack, State.setPc]⟩
  · exact .inr ⟨by omega, by simp [State.pushAndJump, State.sp, Config.stackDepth, h]⟩

/-! ## Keypad -/

theorem mem_allKeys : ∀ k, k ∈ allKeys := by decide

/-- The poll's key is the least pressed one (R141). -/
theorem State.firstPressed_least (k : Key) (h : s.firstPressed = some k) :
    s.pressed k = true ∧ ∀ j < k, s.pressed j = false := by
  unfold State.firstPressed allKeys at h
  obtain ⟨hk, as, bs, hl, ha⟩ := List.find?_eq_some_iff_append.mp h
  refine ⟨hk, fun j hj => ?_⟩
  have hsorted : (allKeys).Pairwise (· < ·) := by decide
  have hmem := mem_allKeys j
  rw [show allKeys = as ++ k :: bs from hl] at hsorted hmem
  rcases List.mem_append.mp hmem with h1 | h1
  · simpa using ha j h1
  · have hp := (List.pairwise_append.mp hsorted).2.1
    rcases List.mem_cons.mp h1 with rfl | h2
    · exact absurd hj (by simp)
    · exact absurd hj (Fin.not_lt.mpr (Fin.le_of_lt ((List.pairwise_cons.mp hp).1 j h2)))

/-- With no key pressed the search finds none. -/
theorem State.firstPressed_none : s.firstPressed = none ↔ ∀ k, s.pressed k = false := by
  unfold State.firstPressed
  rw [List.find?_eq_none]
  refine ⟨fun h k => ?_, fun h k _ => by simp [h k]⟩
  simpa using h k (mem_allKeys k)

/-- A pressed key with no lower one pressed is the poll's. -/
theorem State.firstPressed_eq (k : Key) (hk : s.pressed k = true) (hl : ∀ j < k, s.pressed j = false) :
    s.firstPressed = some k := by
  cases h : s.firstPressed with
  | none => rw [s.firstPressed_none.mp h k] at hk; exact absurd hk (by simp)
  | some j =>
    obtain ⟨hj, hlow⟩ := s.firstPressed_least j h
    rcases lt_trichotomy j k with hlt | heq | hgt
    · rw [hl j hlt] at hj; exact absurd hj (by simp)
    · rw [heq]
    · rw [hlow k hgt] at hk; exact absurd hk (by simp)

/-! ## Random input -/

/-- A draw reads the input if it holds a byte, else it takes the next free value; only the random fields change. -/
theorem State.drawRnd_cases :
    (∃ r rest, s.rndIn = r :: rest ∧ s.drawRnd = (r, { s with rndIn := rest })) ∨
    (s.rndIn = [] ∧ s.drawRnd = (Config.rndByte s.draws, { s with draws := s.draws + 1 })) := by
  unfold State.drawRnd
  cases h : s.rndIn with
  | nil => exact .inr ⟨rfl, rfl⟩
  | cons r rest => exact .inl ⟨r, rest, rfl, rfl⟩

/-! ## Timers -/

/-- A timer counts down by one and stops at 0 (R310, R312). -/
theorem countDown_toNat (t : Byte) : (countDown t).toNat = t.toNat - 1 := by
  unfold countDown
  split
  · rename_i h; subst h; rfl
  · rename_i h
    have h0 : t.toNat ≠ 0 := fun e => h (BitVec.eq_of_toNat_eq (by simpa using e))
    have ht := t.isLt
    rw [BitVec.toNat_sub]
    have h1 : (1 : Byte).toNat = 1 := rfl
    omega

end Sys2Proof.Machine
end

