-- ==== Sys2Proof/Laws/Commands.lean ====
section
/-! SUPPORT. One lemma per command, saying once everything it does, and the reads of the memory that LOAD and RESET
install (spec 40_engine_cycle.md R147–R149, 70_reset_and_hazards.md R330–R335). -/

namespace Sys2Proof.Machine

variable (s : State)

/-! ## Memory contents -/

@[simp] theorem font_length : Config.font.length = 80 := by decide

theorem getD_eq_getElem? {bs : List Byte} {k : Nat} (h : k < bs.length) : some (bs.getD k 0) = bs[k]? := by
  rw [List.getD_eq_getElem?_getD, List.getElem?_eq_getElem h]; rfl

/-- A byte of the font in memory that lists nothing (R330). -/
theorem unlisted_font (p : Config.Params) (k : Nat) (h : k < 80) :
    some (unlisted p (p.fontBase.val + k)) = Config.font[k]? := by
  simp only [unlisted, if_pos (Nat.le_add_right _ _), Nat.add_sub_cancel_left]
  exact getD_eq_getElem? (by simpa using h)

/-- A byte outside the font in memory that lists nothing (R330). -/
theorem unlisted_zero (p : Config.Params) (a : Nat) (h : a < p.fontBase.val ∨ p.fontBase.val + 80 ≤ a) :
    unlisted p a = 0 := by
  unfold unlisted
  split
  · rw [List.getD_eq_getElem?_getD, List.getElem?_eq_none (by rw [font_length]; omega)]; rfl
  · rfl

/-- An address inside memory needs no mask. -/
theorem mask12_of_lt {a : Nat} (h : a < 4096) : mask12 a = a := Nat.mod_eq_of_lt h

/-! ## The host's commands -/

/-- The keys after some of the vector is copied (R147). -/
theorem copyKeys_get (keys : BitVec 16) (ks : Vector Bool 16) (k : Key) (n : Nat) :
    (forUp n (fun j v => v.setIfInBounds j (keys.getLsbD j)) ks).get k
      = if k.val < n then keys.getLsbD k.val else ks.get k := by
  induction n with
  | zero => simp
  | succ n ih =>
    rw [forUp_succ, Vector.get_eq_getElem, Vector.getElem_setIfInBounds]
    by_cases e : n = k.val
    · simp [e]
    · have : (k.val < n + 1) = (k.val < n) := by simp only [eq_iff_iff]; omega
      rw [if_neg e, ← Vector.get_eq_getElem, ih]; simp only [this]

/-- SET_KEYS changes the keypad and the outputs only (R147). -/
theorem State.setKeysCommand_eq (keys : BitVec 16) : ∃ ks : Vector Bool 16,
    s.setKeysCommand keys = { s with key := ks, out := Outputs.empty } ∧ ∀ k : Key, ks.get k = keys.getLsbD k.val := by
  unfold State.setKeysCommand
  generalize h : forUp 16 (fun k (v : Vector Bool 16) => v.setIfInBounds k (keys.getLsbD k)) s.key = ks
  exact ⟨ks, rfl, fun k => by rw [← h, copyKeys_get]; simp⟩

/-- What a restart leaves (R50). -/
theorem State.restart_reset (m : Memory) (o : Outputs) : (s.restart m o).HasResetValues where
  registers := by simp [State.restart, State.powerOn]
  index := rfl
  programCounter := rfl
  stackEmpty := rfl
  delayTimer := rfl
  soundTimer := rfl
  pixels := by simp [State.restart, State.powerOn, Framebuffer.get]
  redrawRequested := rfl
  keys := by simp [State.restart, State.powerOn]
  running := rfl

/-- LOAD of a ROM that fits (R332). -/
theorem State.load_fits (rom : List Byte) (h : rom.length ≤ 3584) :
    s.load rom = s.restart (Memory.writeList s.params [] 0x200 rom) { Outputs.empty with status := some .ok } := by
  have : WellFormed.romOk rom = true := decide_eq_true h
  simp only [State.load, this, if_true, Config.progBase]

/-- LOAD of a ROM that does not fit (R332, R334). -/
theorem State.load_tooLarge (rom : List Byte) (h : 3584 < rom.length) :
    s.load rom = { s with out := { Outputs.empty with status := some .romTooLarge } } := by
  have : WellFormed.romOk rom = false := decide_eq_false (Nat.not_le.mpr h)
  simp only [State.load, this, Bool.false_eq_true, if_false]; rfl

/-- RESET in full (R335): the memory it leaves has the font written over the old one. -/
theorem State.resetCommand_eq : ∃ m, s.resetCommand = s.restart m Outputs.empty ∧
    (∀ a, Memory.read s.params m a =
      if s.params.fontBase.val ≤ a ∧ a < s.params.fontBase.val + 80 then Config.font.getD (a - s.params.fontBase.val) 0
      else Memory.read s.params s.mem a) ∧
    (Memory.wf s.params s.mem → Memory.wf s.params m) := by
  refine ⟨Memory.writeList s.params s.mem s.params.fontBase.val Config.font, rfl, fun a => ?_, fun h => ?_⟩
  · rw [Memory.read_writeList, font_length]
  · have := s.params.fontBase.isLt
    exact Memory.writeList_wf _ _ _ _ (by rw [font_length, Config.memSize]; omega) h

/-- The STEP command answers a state when the STEP does (R140, R19). -/
theorem restoreRnd_next {rest : List Byte} {r : Result} {t : State} (h : restoreRnd rest r = .next t) :
    ∃ u, r = .next u ∧ t = { u with rndIn := rest } := by
  cases r with
  | next u => exact ⟨u, rfl, by cases h; rfl⟩
  | fault e => cases h
  | refused e => cases h

end Sys2Proof.Machine
end

