-- ==== Sys2Proof/Laws/Fields.lean ====
section
/-! SUPPORT. The fields of a word that a form lays out (spec 30_encoding.md R111, R112), and a word as its two bytes. -/

namespace Sys2Proof

@[simp] theorem nibble_toFin (k : Fin 16) : (nibble k).toFin = k := rfl

/-! ## The bits of the forms -/

theorem formNNN_bit (o : BitVec 4) (a : Addr) (i : Nat) :
    (formNNN o a).getLsbD i = if i < 12 then a.getLsbD i else o.getLsbD (i - 12) :=
  BitVec.getLsbD_append (x := o) (y := a)

theorem formXNN_bit (o : BitVec 4) (x : Reg) (b : Byte) (i : Nat) :
    (formXNN o x b).getLsbD i = if i < 8 then b.getLsbD i
      else if i - 8 < 4 then (nibble x).getLsbD (i - 8) else o.getLsbD (i - 8 - 4) := by
  rw [show (formXNN o x b).getLsbD i = (o ++ nibble x ++ b : BitVec (4 + 4 + 8)).getLsbD i from rfl,
    BitVec.getLsbD_append, BitVec.getLsbD_append]

theorem formXYN_bit (o : BitVec 4) (x y : Reg) (n : BitVec 4) (i : Nat) :
    (formXYN o x y n).getLsbD i = if i < 4 then n.getLsbD i else if i - 4 < 4 then (nibble y).getLsbD (i - 4)
      else if i - 4 - 4 < 4 then (nibble x).getLsbD (i - 4 - 4) else o.getLsbD (i - 4 - 4 - 4) := by
  rw [show (formXYN o x y n).getLsbD i = (o ++ nibble x ++ nibble y ++ n : BitVec (4 + 4 + 4 + 4)).getLsbD i from rfl,
    BitVec.getLsbD_append, BitVec.getLsbD_append, BitVec.getLsbD_append]

theorem wordOfBytes_bit (hi lo : Byte) (i : Nat) :
    (wordOfBytes hi lo).getLsbD i = if i < 8 then lo.getLsbD i else hi.getLsbD (i - 8) :=
  BitVec.getLsbD_append (x := hi) (y := lo)

/-- A slice is a value if the bits are. -/
theorem slice_eq {w : Word} {start len : Nat} {v : BitVec len}
    (h : ∀ i < len, w.getLsbD (start + i) = v.getLsbD i) : w.extractLsb' start len = v := by
  refine BitVec.eq_of_getLsbD_eq fun i hi => ?_
  simp [hi, h i hi]

/-! ## Form NNN -/

@[simp] theorem op_formNNN (o : BitVec 4) (a : Addr) : Field.op (formNNN o a) = o :=
  slice_eq fun i hi => by
    rw [formNNN_bit, if_neg (by omega), show 12 + i - 12 = i by omega]

@[simp] theorem nnn_formNNN (o : BitVec 4) (a : Addr) : Field.nnn (formNNN o a) = a :=
  slice_eq fun i hi => by
    rw [formNNN_bit, if_pos (by omega), show 0 + i = i by omega]

/-! ## Form XNN -/

@[simp] theorem op_formXNN (o : BitVec 4) (x : Reg) (b : Byte) : Field.op (formXNN o x b) = o :=
  slice_eq fun i hi => by
    rw [formXNN_bit, if_neg (by omega), if_neg (by omega), show 12 + i - 8 - 4 = i by omega]

@[simp] theorem x_formXNN (o : BitVec 4) (x : Reg) (b : Byte) : Field.x (formXNN o x b) = x :=
  congrArg BitVec.toFin <| slice_eq (v := nibble x) fun i hi => by
    rw [formXNN_bit, if_neg (by omega), if_pos (by omega), show 8 + i - 8 = i by omega]

@[simp] theorem nn_formXNN (o : BitVec 4) (x : Reg) (b : Byte) : Field.nn (formXNN o x b) = b :=
  slice_eq fun i hi => by
    rw [formXNN_bit, if_pos (by omega), show 0 + i = i by omega]

/-! ## Form XYN -/

@[simp] theorem op_formXYN (o : BitVec 4) (x y : Reg) (n : BitVec 4) : Field.op (formXYN o x y n) = o :=
  slice_eq fun i hi => by
    rw [formXYN_bit, if_neg (by omega), if_neg (by omega), if_neg (by omega), show 12 + i - 4 - 4 - 4 = i by omega]

@[simp] theorem x_formXYN (o : BitVec 4) (x y : Reg) (n : BitVec 4) : Field.x (formXYN o x y n) = x :=
  congrArg BitVec.toFin <| slice_eq (v := nibble x) fun i hi => by
    rw [formXYN_bit, if_neg (by omega), if_neg (by omega), if_pos (by omega), show 8 + i - 4 - 4 = i by omega]

@[simp] theorem y_formXYN (o : BitVec 4) (x y : Reg) (n : BitVec 4) : Field.y (formXYN o x y n) = y :=
  congrArg BitVec.toFin <| slice_eq (v := nibble y) fun i hi => by
    rw [formXYN_bit, if_neg (by omega), if_pos (by omega), show 4 + i - 4 = i by omega]

@[simp] theorem n_formXYN (o : BitVec 4) (x y : Reg) (n : BitVec 4) : Field.n (formXYN o x y n) = n.toFin :=
  congrArg BitVec.toFin <| slice_eq (v := n) fun i hi => by
    rw [formXYN_bit, if_pos (by omega), show 0 + i = i by omega]

/-! ## Words from their fields and bytes -/

/-- A bit of a field is a bit of the word. -/
theorem slice_bit (w : Word) (start len i : Nat) (hi : i < len) :
    (w.extractLsb' start len).getLsbD i = w.getLsbD (start + i) := by
  simp [hi]

/-- A word is laid out by its own fields, form NNN. -/
theorem formNNN_fields (w : Word) : formNNN (Field.op w) (Field.nnn w) = w := by
  refine BitVec.eq_of_getLsbD_eq fun i hi => ?_
  rw [formNNN_bit]
  split
  · rw [Field.nnn, slice_bit _ _ _ _ (by omega)]; congr 1; omega
  · rw [Field.op, slice_bit _ _ _ _ (by omega)]; congr 1; omega

/-- A word is laid out by its own fields, form XNN. -/
theorem formXNN_fields (w : Word) : formXNN (Field.op w) (Field.x w) (Field.nn w) = w := by
  refine BitVec.eq_of_getLsbD_eq fun i hi => ?_
  rw [formXNN_bit, show nibble (Field.x w) = w.extractLsb' 8 4 from rfl]
  split
  · rw [Field.nn, slice_bit _ _ _ _ (by omega)]; congr 1; omega
  · split
    · rw [slice_bit _ _ _ _ (by omega)]; congr 1; omega
    · rw [Field.op, slice_bit _ _ _ _ (by omega)]; congr 1; omega

/-- A word is laid out by its own fields, form XYN. -/
theorem formXYN_fields (w : Word) : formXYN (Field.op w) (Field.x w) (Field.y w) (nibble (Field.n w)) = w := by
  refine BitVec.eq_of_getLsbD_eq fun i hi => ?_
  rw [formXYN_bit, show nibble (Field.x w) = w.extractLsb' 8 4 from rfl,
    show nibble (Field.y w) = w.extractLsb' 4 4 from rfl, show nibble (Field.n w) = w.extractLsb' 0 4 from rfl]
  split
  · rw [slice_bit _ _ _ _ (by omega)]; congr 1; omega
  · split
    · rw [slice_bit _ _ _ _ (by omega)]; congr 1; omega
    · split
      · rw [slice_bit _ _ _ _ (by omega)]; congr 1; omega
      · rw [Field.op, slice_bit _ _ _ _ (by omega)]; congr 1; omega

/-- A word of a known family, form NNN. -/
theorem formNNN_of_op {w : Word} (o : BitVec 4) (h : (Field.op w).toNat = o.toNat) : formNNN o (Field.nnn w) = w := by
  rw [← BitVec.eq_of_toNat_eq h]; exact formNNN_fields w

/-- A word of a known family, form XNN. -/
theorem formXNN_of_op {w : Word} (o : BitVec 4) (h : (Field.op w).toNat = o.toNat) :
    formXNN o (Field.x w) (Field.nn w) = w := by
  rw [← BitVec.eq_of_toNat_eq h]; exact formXNN_fields w

/-- A word of a known family and low byte, form X. -/
theorem formX_of_op {w : Word} (o : BitVec 4) (b : Byte) (h : (Field.op w).toNat = o.toNat)
    (hb : (Field.nn w).toNat = b.toNat) : formXNN o (Field.x w) b = w := by
  rw [← BitVec.eq_of_toNat_eq hb]; exact formXNN_of_op o h

/-- A word of a known family, form XYN. -/
theorem formXYN_of_op {w : Word} (o : BitVec 4) (h : (Field.op w).toNat = o.toNat) :
    formXYN o (Field.x w) (Field.y w) (nibble (Field.n w)) = w := by
  rw [← BitVec.eq_of_toNat_eq h]; exact formXYN_fields w

/-- A word of a known family and low nibble, form XY. -/
theorem formXY_of_op {w : Word} (o n : BitVec 4) (h : (Field.op w).toNat = o.toNat)
    (hn : (Field.n w).val = n.toNat) : formXYN o (Field.x w) (Field.y w) n = w := by
  have : nibble (Field.n w) = n := BitVec.eq_of_toNat_eq hn
  rw [← this]; exact formXYN_of_op o h

/-! ## The fields as numbers, as R116 reads them -/

theorem op_eq_div (w : Word) : (Field.op w).toNat = w.toNat / 4096 := by
  have := w.isLt
  simp only [Field.op, BitVec.extractLsb'_toNat, Nat.shiftRight_eq_div_pow]; omega

theorem n_eq_mod (w : Word) : (Field.n w).val = w.toNat % 16 := by simp [Field.n]

theorem nn_eq_mod (w : Word) : (Field.nn w).toNat = w.toNat % 256 := by simp [Field.nn]

/-- A word is its two bytes, high byte first (R83). -/
@[simp] theorem wordOfBytes_bytes (w : Word) : wordOfBytes (highByte w) (lowByte w) = w := by
  refine BitVec.eq_of_getLsbD_eq fun i hi => ?_
  rw [wordOfBytes_bit]
  split
  · rw [lowByte, slice_bit _ _ _ _ (by omega)]; congr 1; omega
  · rw [highByte, slice_bit _ _ _ _ (by omega)]; congr 1; omega

/-- The number of a word, from its bytes (R83, R84). -/
theorem wordOfBytes_toNat (hi lo : Byte) : (wordOfBytes hi lo).toNat = 256 * hi.toNat + lo.toNat := by
  have h := lo.isLt
  rw [show (wordOfBytes hi lo).toNat = (hi ++ lo : BitVec (8 + 8)).toNat from rfl, BitVec.toNat_append,
    Nat.shiftLeft_eq, Nat.mul_comm, ← Nat.two_pow_add_eq_or_of_lt h]

end Sys2Proof
end

