-- ==== Sys2Proof/Laws/Rows.lean ====
section
/-! SUPPORT. The rows of the opcode table (spec 30_encoding.md R114–R116, opcode_table.json): the fixed bits of a word from
its fields, the row of a decoded word, and one lemma per row saying which words are that instruction. -/

namespace Sys2Proof

/-! ## The fixed bits of a word, from its fields -/

/-- The bits of a form with the family nibble only. -/
theorem and_op (w : Word) : w &&& 0xF000 = formNNN (Field.op w) 0 := by
  conv_lhs => rw [← formNNN_fields w]
  refine BitVec.eq_of_getLsbD_eq fun i hi => ?_
  rw [BitVec.getLsbD_and, formNNN_bit, formNNN_bit]
  generalize Field.op w = o
  generalize Field.nnn w = a
  interval_cases i <;> simp

/-- The bits of a form with the family nibble and the low nibble. -/
theorem and_op_n (w : Word) : w &&& 0xF00F = formXYN (Field.op w) 0 0 (nibble (Field.n w)) := by
  conv_lhs => rw [← formXYN_fields w]
  refine BitVec.eq_of_getLsbD_eq fun i hi => ?_
  rw [BitVec.getLsbD_and, formXYN_bit, formXYN_bit]
  generalize Field.op w = o
  generalize nibble (Field.n w) = n
  generalize nibble (Field.x w) = x
  generalize nibble (Field.y w) = y
  interval_cases i <;> simp <;> rfl

/-- The bits of a form with the family nibble and the low byte. -/
theorem and_op_nn (w : Word) : w &&& 0xF0FF = formXNN (Field.op w) 0 (Field.nn w) := by
  conv_lhs => rw [← formXNN_fields w]
  refine BitVec.eq_of_getLsbD_eq fun i hi => ?_
  rw [BitVec.getLsbD_and, formXNN_bit, formXNN_bit]
  generalize Field.op w = o
  generalize Field.nn w = n
  generalize nibble (Field.x w) = x
  interval_cases i <;> simp <;> rfl

/-! ## The fixed bits of the forms -/

theorem formNNN_and (o : BitVec 4) (a : Addr) : formNNN o a &&& 0xF000 = formNNN o 0 := by rw [and_op, op_formNNN]

theorem formXNN_and (o : BitVec 4) (x : Reg) (b : Byte) : formXNN o x b &&& 0xF000 = formNNN o 0 := by
  rw [and_op, op_formXNN]

theorem formX_and (o : BitVec 4) (x : Reg) (b : Byte) : formXNN o x b &&& 0xF0FF = formXNN o 0 b := by
  rw [and_op_nn, op_formXNN, nn_formXNN]

theorem formXY_and (o : BitVec 4) (x y : Reg) (n : BitVec 4) : formXYN o x y n &&& 0xF00F = formXYN o 0 0 n := by
  rw [and_op_n, op_formXYN, n_formXYN]; rfl

theorem formXYN_and (o : BitVec 4) (x y : Reg) (n : BitVec 4) : formXYN o x y n &&& 0xF000 = formNNN o 0 := by
  rw [and_op, op_formXYN]

/-! ## From the fields to the fixed bits -/

theorem and_of_op {w : Word} (o : BitVec 4) (h : (Field.op w).toNat = o.toNat) : w &&& 0xF000 = formNNN o 0 := by
  rw [and_op, BitVec.eq_of_toNat_eq h]

theorem and_of_op_n {w : Word} (o : BitVec 4) {k : Nat} (h : (Field.op w).toNat = o.toNat) (hn : (Field.n w).val = k) :
    w &&& 0xF00F = formXYN o 0 0 (BitVec.ofNat 4 k) := by
  rw [and_op_n, BitVec.eq_of_toNat_eq h, ← hn]
  congr 1; simp [nibble]

theorem and_of_op_nn {w : Word} (o : BitVec 4) {k : Nat} (h : (Field.op w).toNat = o.toNat)
    (hb : (Field.nn w).toNat = k) : w &&& 0xF0FF = formXNN o 0 (BitVec.ofNat 8 k) := by
  rw [and_op_nn, BitVec.eq_of_toNat_eq h, ← hb, BitVec.ofNat_toNat]; simp

theorem decodeFamily8_row (w : Word) (i : Instr) (hop : (Field.op w).toNat = 8) (h : decodeFamily8 w = .instr i) :
    w &&& tableMask i = tableMatch i := by
  unfold decodeFamily8 at h
  split at h <;> rename_i hn <;> (try cases h) <;> exact and_of_op_n 8 hop hn

theorem decodeFamilyE_row (w : Word) (i : Instr) (hop : (Field.op w).toNat = 14) (h : decodeFamilyE w = .instr i) :
    w &&& tableMask i = tableMatch i := by
  unfold decodeFamilyE at h
  split at h <;> rename_i hn <;> (try cases h) <;> exact and_of_op_nn 0xE hop hn

theorem decodeFamilyF_row (w : Word) (i : Instr) (hop : (Field.op w).toNat = 15) (h : decodeFamilyF w = .instr i) :
    w &&& tableMask i = tableMatch i := by
  unfold decodeFamilyF at h
  split at h <;> rename_i hn <;> (try cases h) <;> exact and_of_op_nn 0xF hop hn

/-- A family nibble that is none of the others is F. -/
theorem op_eq_F {w : Word} (h : ∀ k < 15, (Field.op w).toNat ≠ k) : (Field.op w).toNat = 15 := by
  have h1 := (Field.op w).isLt
  by_contra h2
  exact h _ (by omega) rfl

/-- A decoded word has the fixed bits of its instruction's row (R115). -/
theorem decode_row (w : Word) (i : Instr) (h : decode w = .instr i) : w &&& tableMask i = tableMatch i := by
  unfold decode at h
  split at h
  case h_1 =>
    split at h
    · rename_i e; cases h; rw [e]; decide
    · split at h
      · rename_i e; cases h; rw [e]; decide
      · cases h
  case h_6 hop =>
    split at h
    · rename_i hn; cases h; exact and_of_op_n 5 hop (congrArg Fin.val hn)
    · cases h
  case h_10 hop =>
    split at h
    · rename_i hn; cases h; exact and_of_op_n 9 hop (congrArg Fin.val hn)
    · cases h
  case h_9 hop => exact decodeFamily8_row w i hop h
  case h_15 hop => exact decodeFamilyE_row w i hop h
  case h_16 => exact decodeFamilyF_row w i (op_eq_F fun k hk e => by interval_cases k <;> contradiction) h
  case h_2 hop => cases h; exact and_of_op 1 hop
  case h_3 hop => cases h; exact and_of_op 2 hop
  case h_4 hop => cases h; exact and_of_op 3 hop
  case h_5 hop => cases h; exact and_of_op 4 hop
  case h_7 hop => cases h; exact and_of_op 6 hop
  case h_8 hop => cases h; exact and_of_op 7 hop
  case h_11 hop => cases h; exact and_of_op 0xA hop
  case h_12 hop => cases h; exact and_of_op 0xB hop
  case h_13 hop => cases h; exact and_of_op 0xC hop
  case h_14 hop => cases h; exact and_of_op 0xD hop

/-! ## From the fixed bits to the fields -/

theorem op_of_and {w : Word} {o : BitVec 4} (h : w &&& 0xF000 = formNNN o 0) : Field.op w = o := by
  have e := congrArg Field.op h
  rwa [and_op, op_formNNN, op_formNNN] at e

theorem op_n_of_and {w : Word} {o n : BitVec 4} (h : w &&& 0xF00F = formXYN o 0 0 n) :
    Field.op w = o ∧ Field.n w = n.toFin := by
  have e := congrArg Field.op h
  have f := congrArg Field.n h
  rw [and_op_n, op_formXYN, op_formXYN] at e
  rw [and_op_n, n_formXYN, n_formXYN] at f
  exact ⟨e, f⟩

theorem op_nn_of_and {w : Word} {o : BitVec 4} {b : Byte} (h : w &&& 0xF0FF = formXNN o 0 b) :
    Field.op w = o ∧ Field.nn w = b := by
  have e := congrArg Field.op h
  have f := congrArg Field.nn h
  rw [and_op_nn, op_formXNN, op_formXNN] at e
  rw [and_op_nn, nn_formXNN, nn_formXNN] at f
  exact ⟨e, f⟩

end Sys2Proof

namespace Sys2Proof.Machine

/-! ## The rows -/

theorem row_cls : rowIs 0xFFFF 0x00E0 (fun _ => .cls) :=
  fun w => ⟨fun h => decode_row w _ h, fun h => by
    rw [show w = 0x00E0 by rw [← h, show (0xFFFF : Word) = BitVec.allOnes 16 from rfl, BitVec.and_allOnes]]; decide⟩

theorem row_ret : rowIs 0xFFFF 0x00EE (fun _ => .ret) :=
  fun w => ⟨fun h => decode_row w _ h, fun h => by
    rw [show w = 0x00EE by rw [← h, show (0xFFFF : Word) = BitVec.allOnes 16 from rfl, BitVec.and_allOnes]]; decide⟩

theorem row_jp : rowIs 0xF000 0x1000 (fun w => .jp (Field.nnn w)) :=
  fun w => ⟨fun h => decode_row w _ h, fun h => by
    have e : Field.op w = 0x1 := op_of_and h
    simp [decode, e]⟩

theorem row_call : rowIs 0xF000 0x2000 (fun w => .call (Field.nnn w)) :=
  fun w => ⟨fun h => decode_row w _ h, fun h => by
    have e : Field.op w = 0x2 := op_of_and h
    simp [decode, e]⟩

theorem row_seVxNn : rowIs 0xF000 0x3000 (fun w => .seVxNn (Field.x w) (Field.nn w)) :=
  fun w => ⟨fun h => decode_row w _ h, fun h => by
    have e : Field.op w = 0x3 := op_of_and h
    simp [decode, e]⟩

theorem row_sneVxNn : rowIs 0xF000 0x4000 (fun w => .sneVxNn (Field.x w) (Field.nn w)) :=
  fun w => ⟨fun h => decode_row w _ h, fun h => by
    have e : Field.op w = 0x4 := op_of_and h
    simp [decode, e]⟩

theorem row_seVxVy : rowIs 0xF00F 0x5000 (fun w => .seVxVy (Field.x w) (Field.y w)) :=
  fun w => ⟨fun h => decode_row w _ h, fun h => by
    have e : Field.op w = 0x5 ∧ Field.n w = 0x0 := op_n_of_and h
    simp [decode, e.1, e.2]⟩

theorem row_ldVxNn : rowIs 0xF000 0x6000 (fun w => .ldVxNn (Field.x w) (Field.nn w)) :=
  fun w => ⟨fun h => decode_row w _ h, fun h => by
    have e : Field.op w = 0x6 := op_of_and h
    simp [decode, e]⟩

theorem row_addVxNn : rowIs 0xF000 0x7000 (fun w => .addVxNn (Field.x w) (Field.nn w)) :=
  fun w => ⟨fun h => decode_row w _ h, fun h => by
    have e : Field.op w = 0x7 := op_of_and h
    simp [decode, e]⟩

theorem row_ldVxVy : rowIs 0xF00F 0x8000 (fun w => .ldVxVy (Field.x w) (Field.y w)) :=
  fun w => ⟨fun h => decode_row w _ h, fun h => by
    have e : Field.op w = 0x8 ∧ Field.n w = 0x0 := op_n_of_and h
    simp [decode, decodeFamily8, e.1, e.2]⟩

theorem row_or : rowIs 0xF00F 0x8001 (fun w => .or (Field.x w) (Field.y w)) :=
  fun w => ⟨fun h => decode_row w _ h, fun h => by
    have e : Field.op w = 0x8 ∧ Field.n w = 0x1 := op_n_of_and h
    simp [decode, decodeFamily8, e.1, e.2]⟩

theorem row_and : rowIs 0xF00F 0x8002 (fun w => .and (Field.x w) (Field.y w)) :=
  fun w => ⟨fun h => decode_row w _ h, fun h => by
    have e : Field.op w = 0x8 ∧ Field.n w = 0x2 := op_n_of_and h
    simp [decode, decodeFamily8, e.1, e.2]⟩

theorem row_xor : rowIs 0xF00F 0x8003 (fun w => .xor (Field.x w) (Field.y w)) :=
  fun w => ⟨fun h => decode_row w _ h, fun h => by
    have e : Field.op w = 0x8 ∧ Field.n w = 0x3 := op_n_of_and h
    simp [decode, decodeFamily8, e.1, e.2]⟩

theorem row_addVxVy : rowIs 0xF00F 0x8004 (fun w => .addVxVy (Field.x w) (Field.y w)) :=
  fun w => ⟨fun h => decode_row w _ h, fun h => by
    have e : Field.op w = 0x8 ∧ Field.n w = 0x4 := op_n_of_and h
    simp [decode, decodeFamily8, e.1, e.2]⟩

theorem row_sub : rowIs 0xF00F 0x8005 (fun w => .sub (Field.x w) (Field.y w)) :=
  fun w => ⟨fun h => decode_row w _ h, fun h => by
    have e : Field.op w = 0x8 ∧ Field.n w = 0x5 := op_n_of_and h
    simp [decode, decodeFamily8, e.1, e.2]⟩

theorem row_shr : rowIs 0xF00F 0x8006 (fun w => .shr (Field.x w) (Field.y w)) :=
  fun w => ⟨fun h => decode_row w _ h, fun h => by
    have e : Field.op w = 0x8 ∧ Field.n w = 0x6 := op_n_of_and h
    simp [decode, decodeFamily8, e.1, e.2]⟩

theorem row_subn : rowIs 0xF00F 0x8007 (fun w => .subn (Field.x w) (Field.y w)) :=
  fun w => ⟨fun h => decode_row w _ h, fun h => by
    have e : Field.op w = 0x8 ∧ Field.n w = 0x7 := op_n_of_and h
    simp [decode, decodeFamily8, e.1, e.2]⟩

theorem row_shl : rowIs 0xF00F 0x800E (fun w => .shl (Field.x w) (Field.y w)) :=
  fun w => ⟨fun h => decode_row w _ h, fun h => by
    have e : Field.op w = 0x8 ∧ Field.n w = 0xe := op_n_of_and h
    simp [decode, decodeFamily8, e.1, e.2]⟩

theorem row_sneVxVy : rowIs 0xF00F 0x9000 (fun w => .sneVxVy (Field.x w) (Field.y w)) :=
  fun w => ⟨fun h => decode_row w _ h, fun h => by
    have e : Field.op w = 0x9 ∧ Field.n w = 0x0 := op_n_of_and h
    simp [decode, e.1, e.2]⟩

theorem row_ldI : rowIs 0xF000 0xA000 (fun w => .ldI (Field.nnn w)) :=
  fun w => ⟨fun h => decode_row w _ h, fun h => by
    have e : Field.op w = 0xa := op_of_and h
    simp [decode, e]⟩

theorem row_jpV0 : rowIs 0xF000 0xB000 (fun w => .jpV0 (Field.nnn w)) :=
  fun w => ⟨fun h => decode_row w _ h, fun h => by
    have e : Field.op w = 0xb := op_of_and h
    simp [decode, e]⟩

theorem row_rnd : rowIs 0xF000 0xC000 (fun w => .rnd (Field.x w) (Field.nn w)) :=
  fun w => ⟨fun h => decode_row w _ h, fun h => by
    have e : Field.op w = 0xc := op_of_and h
    simp [decode, e]⟩

theorem row_drw : rowIs 0xF000 0xD000 (fun w => .drw (Field.x w) (Field.y w) (Field.n w)) :=
  fun w => ⟨fun h => decode_row w _ h, fun h => by
    have e : Field.op w = 0xd := op_of_and h
    simp [decode, e]⟩

theorem row_skp : rowIs 0xF0FF 0xE09E (fun w => .skp (Field.x w)) :=
  fun w => ⟨fun h => decode_row w _ h, fun h => by
    have e : Field.op w = 0xe ∧ Field.nn w = 0x9e := op_nn_of_and h
    simp [decode, decodeFamilyE, e.1, e.2]⟩

theorem row_sknp : rowIs 0xF0FF 0xE0A1 (fun w => .sknp (Field.x w)) :=
  fun w => ⟨fun h => decode_row w _ h, fun h => by
    have e : Field.op w = 0xe ∧ Field.nn w = 0xa1 := op_nn_of_and h
    simp [decode, decodeFamilyE, e.1, e.2]⟩

theorem row_ldVxDt : rowIs 0xF0FF 0xF007 (fun w => .ldVxDt (Field.x w)) :=
  fun w => ⟨fun h => decode_row w _ h, fun h => by
    have e : Field.op w = 0xf ∧ Field.nn w = 0x7 := op_nn_of_and h
    simp [decode, decodeFamilyF, e.1, e.2]⟩

theorem row_ldVxK : rowIs 0xF0FF 0xF00A (fun w => .ldVxK (Field.x w)) :=
  fun w => ⟨fun h => decode_row w _ h, fun h => by
    have e : Field.op w = 0xf ∧ Field.nn w = 0xa := op_nn_of_and h
    simp [decode, decodeFamilyF, e.1, e.2]⟩

theorem row_ldDtVx : rowIs 0xF0FF 0xF015 (fun w => .ldDtVx (Field.x w)) :=
  fun w => ⟨fun h => decode_row w _ h, fun h => by
    have e : Field.op w = 0xf ∧ Field.nn w = 0x15 := op_nn_of_and h
    simp [decode, decodeFamilyF, e.1, e.2]⟩

theorem row_ldStVx : rowIs 0xF0FF 0xF018 (fun w => .ldStVx (Field.x w)) :=
  fun w => ⟨fun h => decode_row w _ h, fun h => by
    have e : Field.op w = 0xf ∧ Field.nn w = 0x18 := op_nn_of_and h
    simp [decode, decodeFamilyF, e.1, e.2]⟩

theorem row_addIVx : rowIs 0xF0FF 0xF01E (fun w => .addIVx (Field.x w)) :=
  fun w => ⟨fun h => decode_row w _ h, fun h => by
    have e : Field.op w = 0xf ∧ Field.nn w = 0x1e := op_nn_of_and h
    simp [decode, decodeFamilyF, e.1, e.2]⟩

theorem row_ldFVx : rowIs 0xF0FF 0xF029 (fun w => .ldFVx (Field.x w)) :=
  fun w => ⟨fun h => decode_row w _ h, fun h => by
    have e : Field.op w = 0xf ∧ Field.nn w = 0x29 := op_nn_of_and h
    simp [decode, decodeFamilyF, e.1, e.2]⟩

theorem row_ldBVx : rowIs 0xF0FF 0xF033 (fun w => .ldBVx (Field.x w)) :=
  fun w => ⟨fun h => decode_row w _ h, fun h => by
    have e : Field.op w = 0xf ∧ Field.nn w = 0x33 := op_nn_of_and h
    simp [decode, decodeFamilyF, e.1, e.2]⟩

theorem row_ldMemVx : rowIs 0xF0FF 0xF055 (fun w => .ldMemVx (Field.x w)) :=
  fun w => ⟨fun h => decode_row w _ h, fun h => by
    have e : Field.op w = 0xf ∧ Field.nn w = 0x55 := op_nn_of_and h
    simp [decode, decodeFamilyF, e.1, e.2]⟩

theorem row_ldVxMem : rowIs 0xF0FF 0xF065 (fun w => .ldVxMem (Field.x w)) :=
  fun w => ⟨fun h => decode_row w _ h, fun h => by
    have e : Field.op w = 0xf ∧ Field.nn w = 0x65 := op_nn_of_and h
    simp [decode, decodeFamilyF, e.1, e.2]⟩

end Sys2Proof.Machine
end

