-- ==== Sys2Proof/Laws/PerInstr.lean ====
section
/-! SUPPORT. The statement about every instruction as syntax, one lemma per constructor: its word has the fixed bits of
its row of the opcode table. -/

namespace Sys2Proof.Laws.EncodeRow

/-- The word of an instruction has the match of its row under the row's mask (30_encoding.md R115). -/
def Statement (i : Instr) : Prop := encode i &&& tableMask i = tableMatch i

theorem cls : Statement .cls := by unfold Statement; decide

theorem ret : Statement .ret := by unfold Statement; decide

theorem jp (nnn : Addr) : Statement (.jp nnn) := formNNN_and 0x1 nnn

theorem call (nnn : Addr) : Statement (.call nnn) := formNNN_and 0x2 nnn

theorem seVxNn (x : Reg) (nn : Byte) : Statement (.seVxNn x nn) := formXNN_and 0x3 x nn

theorem sneVxNn (x : Reg) (nn : Byte) : Statement (.sneVxNn x nn) := formXNN_and 0x4 x nn

theorem seVxVy (x y : Reg) : Statement (.seVxVy x y) := formXY_and 0x5 x y 0x0

theorem ldVxNn (x : Reg) (nn : Byte) : Statement (.ldVxNn x nn) := formXNN_and 0x6 x nn

theorem addVxNn (x : Reg) (nn : Byte) : Statement (.addVxNn x nn) := formXNN_and 0x7 x nn

theorem ldVxVy (x y : Reg) : Statement (.ldVxVy x y) := formXY_and 0x8 x y 0x0

theorem or (x y : Reg) : Statement (.or x y) := formXY_and 0x8 x y 0x1

theorem and (x y : Reg) : Statement (.and x y) := formXY_and 0x8 x y 0x2

theorem xor (x y : Reg) : Statement (.xor x y) := formXY_and 0x8 x y 0x3

theorem addVxVy (x y : Reg) : Statement (.addVxVy x y) := formXY_and 0x8 x y 0x4

theorem sub (x y : Reg) : Statement (.sub x y) := formXY_and 0x8 x y 0x5

theorem shr (x y : Reg) : Statement (.shr x y) := formXY_and 0x8 x y 0x6

theorem subn (x y : Reg) : Statement (.subn x y) := formXY_and 0x8 x y 0x7

theorem shl (x y : Reg) : Statement (.shl x y) := formXY_and 0x8 x y 0xe

theorem sneVxVy (x y : Reg) : Statement (.sneVxVy x y) := formXY_and 0x9 x y 0x0

theorem ldI (nnn : Addr) : Statement (.ldI nnn) := formNNN_and 0xa nnn

theorem jpV0 (nnn : Addr) : Statement (.jpV0 nnn) := formNNN_and 0xb nnn

theorem rnd (x : Reg) (nn : Byte) : Statement (.rnd x nn) := formXNN_and 0xc x nn

theorem drw (x y : Reg) (n : Fin 16) : Statement (.drw x y n) := formXYN_and 0xd x y _

theorem skp (x : Reg) : Statement (.skp x) := formX_and 0xe x 0x9e

theorem sknp (x : Reg) : Statement (.sknp x) := formX_and 0xe x 0xa1

theorem ldVxDt (x : Reg) : Statement (.ldVxDt x) := formX_and 0xf x 0x7

theorem ldVxK (x : Reg) : Statement (.ldVxK x) := formX_and 0xf x 0xa

theorem ldDtVx (x : Reg) : Statement (.ldDtVx x) := formX_and 0xf x 0x15

theorem ldStVx (x : Reg) : Statement (.ldStVx x) := formX_and 0xf x 0x18

theorem addIVx (x : Reg) : Statement (.addIVx x) := formX_and 0xf x 0x1e

theorem ldFVx (x : Reg) : Statement (.ldFVx x) := formX_and 0xf x 0x29

theorem ldBVx (x : Reg) : Statement (.ldBVx x) := formX_and 0xf x 0x33

theorem ldMemVx (x : Reg) : Statement (.ldMemVx x) := formX_and 0xf x 0x55

theorem ldVxMem (x : Reg) : Statement (.ldVxMem x) := formX_and 0xf x 0x65

end Sys2Proof.Laws.EncodeRow
end

