-- ==== Sys2Proof/Laws/Sprite.lean ====
section
/-! SUPPORT. What drawing a sprite does to every pixel (spec 44_display.md R253, R254): no two sprite bits meet, so the
covered pixels are flipped, the others kept, and a collision is a covered pixel that was set. -/

namespace Sys2Proof.Machine

/-! ## Pixels -/

/-- One pixel after a write of one pixel. -/
theorem Framebuffer.get_set (fb : Framebuffer) (p q : Pixel) (b : Bool) :
    Framebuffer.get (Framebuffer.set fb p b) q = if q = p then b else Framebuffer.get fb q := by
  obtain ⟨py, px⟩ := p
  obtain ⟨qy, qx⟩ := q
  simp only [Framebuffer.get, Framebuffer.set, vector_get_set, Prod.mk.injEq]
  by_cases hy : qy = py
  · subst hy; simp [vector_get_set]
  · simp [hy]

@[simp] theorem Framebuffer.get_blank (p : Pixel) : Framebuffer.get Framebuffer.blank p = false := by
  simp [Framebuffer.get, Framebuffer.blank]

/-- Framebuffers with the same pixels are equal. -/
theorem Framebuffer.ext_get (f g : Framebuffer) (h : ∀ p, Framebuffer.get f p = Framebuffer.get g p) : f = g := by
  refine Vector.ext fun y hy => Vector.ext fun x hx => ?_
  simpa [Framebuffer.get, Vector.get_eq_getElem] using h (⟨y, hy⟩, ⟨x, hx⟩)

/-! ## Placement -/

/-- Two sprite bits of different columns or rows never land on one pixel (R254). -/
theorem place_injective {edge : Config.SpriteEdge} {x0 y0 r c r' c' : Nat} {p : Pixel} (hc : c < 8) (hc' : c' < 8)
    (hr : r < 32) (hr' : r' < 32) (h : place edge (x0 + c) (y0 + r) = some p)
    (h' : place edge (x0 + c') (y0 + r') = some p) : c = c' ∧ r = r' := by
  cases edge with
  | wrap =>
    simp only [place, Option.some.injEq] at h h'
    rw [← h'] at h
    simp only [Prod.mk.injEq, Fin.mk.injEq] at h
    omega
  | clip =>
    simp only [place] at h h'
    split at h <;> split at h' <;> simp_all only [Option.some.injEq, reduceCtorEq]
    rw [← h'] at h
    simp only [Prod.mk.injEq, Fin.mk.injEq] at h
    omega

/-! ## Layers -/

/-- `e` is `d` with exactly the pixels of `C` flipped, and a collision noted if one of them was set. -/
structure Draws (d e : Canvas) (C : Pixel → Prop) : Prop where
  flipped : ∀ p, C p → Framebuffer.get e.fb p = !Framebuffer.get d.fb p
  kept : ∀ p, ¬ C p → Framebuffer.get e.fb p = Framebuffer.get d.fb p
  hit : e.hit = true ↔ d.hit = true ∨ ∃ p, C p ∧ Framebuffer.get d.fb p = true

theorem Draws.none (d : Canvas) : Draws d d (fun _ => False) := ⟨by simp, by simp, by simp⟩

theorem Draws.congr {d e : Canvas} {C D : Pixel → Prop} (h : Draws d e C) (hCD : ∀ p, C p ↔ D p) : Draws d e D := by
  have : C = D := funext fun p => propext (hCD p)
  exact this ▸ h

/-- One sprite bit flips the one pixel it lands on. -/
theorem Draws.flip (d : Canvas) (q : Option Pixel) : Draws d (d.flip q) (fun p => q = some p) := by
  cases q with
  | none => exact ⟨by simp, by simp [Canvas.flip], by simp [Canvas.flip]⟩
  | some q =>
    refine ⟨fun p hp => ?_, fun p hp => ?_, ?_⟩
    · cases hp; simp [Canvas.flip, Framebuffer.get_set]
    · have : p ≠ q := fun e => hp (by rw [e])
      simp [Canvas.flip, Framebuffer.get_set, this]
    · simp [Canvas.flip]

/-- Two layers without a common pixel are one layer. -/
theorem Draws.trans {d e f : Canvas} {C D : Pixel → Prop} (h : Draws d e C) (k : Draws e f D)
    (disj : ∀ p, C p → ¬ D p) : Draws d f (fun p => C p ∨ D p) := by
  refine ⟨fun p hp => ?_, fun p hp => ?_, ?_⟩
  · rcases hp with hp | hp
    · rw [k.kept p (disj p hp), h.flipped p hp]
    · rw [k.flipped p hp, h.kept p fun hc => disj p hc hp]
  · rw [k.kept p fun hd => hp (.inr hd), h.kept p fun hc => hp (.inl hc)]
  · rw [k.hit, h.hit]
    constructor
    · rintro ((h1 | ⟨p, hp, hb⟩) | ⟨p, hp, hb⟩)
      · exact .inl h1
      · exact .inr ⟨p, .inl hp, hb⟩
      · exact .inr ⟨p, .inr hp, by rwa [← h.kept p fun hc => disj p hc hp]⟩
    · rintro (h1 | ⟨p, hp | hp, hb⟩)
      · exact .inl (.inl h1)
      · exact .inl (.inr ⟨p, hp, hb⟩)
      · exact .inr ⟨p, hp, by rwa [h.kept p fun hc => disj p hc hp]⟩

/-- One sprite row. -/
theorem Canvas.drawRow_draws (edge : Config.SpriteEdge) (x0 ay : Nat) (row : Byte) (d : Canvas) :
    Draws d (d.drawRow edge x0 ay row) (fun p => ∃ c < 8, spriteBit row c = true ∧ place edge (x0 + c) ay = some p) := by
  refine forUp_rec (P := fun k e => k ≤ 8 →
      Draws d e (fun p => ∃ c < k, spriteBit row c = true ∧ place edge (x0 + c) ay = some p)) (a := d) 8
    (fun _ => (Draws.none d).congr (by simp)) ?_ (Nat.le_refl 8)
  intro k hk e ih hk8
  have ih := ih (by omega)
  by_cases hb : spriteBit row k = true
  · simp only [hb, if_true]
    refine (ih.trans (Draws.flip e (place edge (x0 + k) ay)) ?_).congr fun p => ?_
    · rintro p ⟨c, hc, -, hp⟩ hq
      have := (place_injective (y0 := ay) (r := 0) (r' := 0) (by omega) (by omega) (by omega) (by omega) hp hq).1
      omega
    · constructor
      · rintro (⟨c, hc, h⟩ | h)
        · exact ⟨c, by omega, h⟩
        · exact ⟨k, by omega, hb, h⟩
      · rintro ⟨c, hc, h⟩
        by_cases e : c = k
        · exact .inr (e ▸ h.2)
        · exact .inl ⟨c, by omega, h⟩
  · simp only [hb, if_false, Bool.false_eq_true]
    refine ih.congr fun p => ⟨fun ⟨c, hc, h⟩ => ⟨c, by omega, h⟩, fun ⟨c, hc, h⟩ => ⟨c, ?_, h⟩⟩
    have : c ≠ k := fun e => hb (e ▸ h.1)
    omega

/-- A whole sprite of at most 32 rows: exactly the covered pixels are flipped. -/
theorem Canvas.drawSprite_draws (edge : Config.SpriteEdge) (x0 y0 n : Nat) (rows : Nat → Byte) (d : Canvas)
    (hn : n ≤ 32) : Draws d (d.drawSprite edge x0 y0 n rows) (covers edge x0 y0 n rows) := by
  refine forUp_rec (P := fun k e => k ≤ 32 → Draws d e (covers edge x0 y0 k rows)) (a := d) n
    (fun _ => (Draws.none d).congr (by simp [covers])) ?_ hn
  intro k hk e ih hk32
  have ih := ih (by omega)
  refine (ih.trans (e.drawRow_draws edge x0 (y0 + k) (rows k)) ?_).congr fun p => ?_
  · rintro p ⟨r, hr, c, hc, -, hp⟩ ⟨c', hc', -, hq⟩
    have := (place_injective hc hc' (by omega) (by omega) hp hq).2
    omega
  · constructor
    · rintro (⟨r, hr, h⟩ | h)
      · exact ⟨r, by omega, h⟩
      · exact ⟨k, by omega, h⟩
    · rintro ⟨r, hr, h⟩
      by_cases e : r = k
      · exact .inr (e ▸ h)
      · exact .inl ⟨r, by omega, h⟩

end Sys2Proof.Machine
end

