-- ==== Sys2Proof/Laws/Step.lean ====
section
/-! SUPPORT. What a fetch and a STEP can do, once (spec 20_memory.md R84, 40_engine_cycle.md R141, R142). -/

namespace Sys2Proof.Machine

variable (s : State)

/-- A byte of memory by a masked address is the byte the memory primitives read. -/
theorem State.byte_addr12 (a : Nat) : s.byte (addr12 a) = s.byteAt a := by
  simp only [State.byte, addr12, State.byteAt, toNat_ofNat12]

/-- The state in which a decoded instruction executes: the same, with the outputs of the fetch (R142, R302). -/
abbrev State.afterFetch (s : State) : State := { s with out := {
  anom := if 0xFFF ≤ s.pc.toNat then 0b0001#4 else 0, anomPc := s.pc, anomW := s.fetchWord,
  tone := false, status := none } }

/-- The word a STEP fetches does not depend on the outputs. -/
@[simp] theorem State.beginStep_fetchWord : s.beginStep.fetchWord = s.fetchWord :=
  State.fetchWord_congr rfl rfl rfl

/-- The start of a STEP and its fetch change the outputs only. -/
theorem State.beginStep_fetch : s.beginStep.fetch = s.afterFetch := by
  unfold State.fetch State.afterFetch
  rw [State.beginStep_fetchWord]
  simp only [State.fetchChecked, State.memRead, State.checkAddr_eq, State.beginStep, State.setOut, Outputs.empty]
  by_cases h1 : 0xFFF < s.pc.toNat
  · have h2 : 0xFFF < s.pc.toNat + 1 := by omega
    have h3 : 0xFFF ≤ s.pc.toNat := by omega
    simp [if_pos h1, if_pos h3]
  · by_cases h3 : 0xFFF ≤ s.pc.toNat
    · simp [if_neg h1, if_pos h3]
    · simp [if_neg h1, if_neg h3]

/-- The number of the fetched word (R84). -/
theorem State.fetchWord_toNat :
    s.fetchWord.toNat = 256 * (s.byteAt s.pc.toNat).toNat + (s.byteAt (s.pc.toNat + 1)).toNat := by
  rw [State.fetchWord_eq, wordOfBytes_toNat]

/-- A STEP in mode Running executes what the word at pc decodes to. -/
theorem step_running (h : s.wait = none) : step s = execDecoded (decode s.fetchWord) s.afterFetch := by
  simp only [step, h, State.beginStep_fetchWord, State.beginStep_fetch]

/-- The key-wait poll changes nothing but the outputs when no key is pressed. -/
theorem step_waiting_none (r : Reg) (h : s.wait = some r) (hk : ∀ k, s.pressed k = false) :
    step s = .next s.beginStep := by
  have hf : s.beginStep.firstPressed = none := (State.firstPressed_none _).mpr hk
  simp only [step, h, State.poll, hf]

/-- The key-wait poll captures the least pressed key. -/
theorem step_waiting_some (r : Reg) (k : Key) (h : s.wait = some r) (hk : s.firstPressed = some k) :
    step s = .next ((s.beginStep.setV r (BitVec.ofNat 8 k.val)).setWait none).advance := by
  have hf : s.beginStep.firstPressed = some k := hk
  simp only [step, h, State.poll, hf]

/-- Everything a STEP can do. -/
theorem step_cases (t : State) (h : step s = .next t) :
    (∃ i, s.wait = none ∧ decode s.fetchWord = .instr i ∧ exec i s.afterFetch = .next t) ∨
    (s.wait = none ∧ decode s.fetchWord = .unknown ∧ t = s.afterFetch.recoverAsNop .unknownOpcode) ∨
    (∃ r, s.wait = some r ∧ (∀ k, s.pressed k = false) ∧ t = s.beginStep) ∨
    (∃ r k, s.wait = some r ∧ s.firstPressed = some k ∧
      t = ((s.beginStep.setV r (BitVec.ofNat 8 k.val)).setWait none).advance) := by
  cases hw : s.wait with
  | none =>
    rw [step_running s hw] at h
    cases hd : decode s.fetchWord with
    | instr i => rw [hd] at h; exact .inl ⟨i, rfl, rfl, h⟩
    | unknown => rw [hd] at h; cases h; exact .inr (.inl ⟨rfl, rfl, rfl⟩)
  | some r =>
    cases hf : s.firstPressed with
    | none =>
      have hk := s.firstPressed_none.mp hf
      rw [step_waiting_none s r hw hk] at h; cases h
      exact .inr (.inr (.inl ⟨r, rfl, hk, rfl⟩))
    | some k =>
      rw [step_waiting_some s r k hw hf] at h; cases h
      exact .inr (.inr (.inr ⟨r, k, rfl, rfl, rfl⟩))

end Sys2Proof.Machine
end

