-- ==== Sys2Proof/Tests/Slice0.lean ====
section
/-! SUPPORT. Tests: decoding of words written out from the spec's encodings, single steps with the expected values of
spec/95_test_vectors.md (each theorem names its vector), ill-formed inputs that the checks refuse, and a witness for
the hypotheses of every statement that has some. -/

namespace Sys2Proof.Tests

open Sys2Proof.Machine

/-! ## Decoding: one word per constructor (30_encoding.md R112, R114; opcode_table.json) -/

theorem test_decode_cls : decode 0x00E0 = .instr .cls := by decide
theorem test_decode_ret : decode 0x00EE = .instr .ret := by decide
theorem test_decode_jp : decode 0x1ABC = .instr (.jp 0xABC) := by decide
theorem test_decode_call : decode 0x2210 = .instr (.call 0x210) := by decide
theorem test_decode_seVxNn : decode 0x3310 = .instr (.seVxNn 3 0x10) := by decide
theorem test_decode_sneVxNn : decode 0x4310 = .instr (.sneVxNn 3 0x10) := by decide
theorem test_decode_seVxVy : decode 0x5120 = .instr (.seVxVy 1 2) := by decide
theorem test_decode_ldVxNn : decode 0x6A9D = .instr (.ldVxNn 0xA 0x9D) := by decide
theorem test_decode_addVxNn : decode 0x70FF = .instr (.addVxNn 0 0xFF) := by decide
theorem test_decode_ldVxVy : decode 0x8010 = .instr (.ldVxVy 0 1) := by decide
theorem test_decode_or : decode 0x8011 = .instr (.or 0 1) := by decide
theorem test_decode_and : decode 0x8012 = .instr (.and 0 1) := by decide
theorem test_decode_xor : decode 0x8013 = .instr (.xor 0 1) := by decide
theorem test_decode_addVxVy : decode 0x8AB4 = .instr (.addVxVy 0xA 0xB) := by decide
theorem test_decode_sub : decode 0x8F15 = .instr (.sub 0xF 1) := by decide
theorem test_decode_shr : decode 0x8D26 = .instr (.shr 0xD 2) := by decide
theorem test_decode_subn : decode 0x8017 = .instr (.subn 0 1) := by decide
theorem test_decode_shl : decode 0x8D0E = .instr (.shl 0xD 0) := by decide
theorem test_decode_sneVxVy : decode 0x9120 = .instr (.sneVxVy 1 2) := by decide
theorem test_decode_ldI : decode 0xA300 = .instr (.ldI 0x300) := by decide
theorem test_decode_jpV0 : decode 0xBFFF = .instr (.jpV0 0xFFF) := by decide
theorem test_decode_rnd : decode 0xC30F = .instr (.rnd 3 0x0F) := by decide
theorem test_decode_drw : decode 0xD01F = .instr (.drw 0 1 0xF) := by decide
theorem test_decode_skp : decode 0xE09E = .instr (.skp 0) := by decide
theorem test_decode_sknp : decode 0xE7A1 = .instr (.sknp 7) := by decide
theorem test_decode_ldVxDt : decode 0xF507 = .instr (.ldVxDt 5) := by decide
theorem test_decode_ldVxK : decode 0xF00A = .instr (.ldVxK 0) := by decide
theorem test_decode_ldDtVx : decode 0xF515 = .instr (.ldDtVx 5) := by decide
theorem test_decode_ldStVx : decode 0xF118 = .instr (.ldStVx 1) := by decide
theorem test_decode_addIVx : decode 0xF21E = .instr (.addIVx 2) := by decide
theorem test_decode_ldFVx : decode 0xF229 = .instr (.ldFVx 2) := by decide
theorem test_decode_ldBVx : decode 0xFA33 = .instr (.ldBVx 0xA) := by decide
theorem test_decode_ldMemVx : decode 0xFF55 = .instr (.ldMemVx 0xF) := by decide
theorem test_decode_ldVxMem : decode 0xF265 = .instr (.ldVxMem 2) := by decide

/-- Words of R116, one per family, and SYS 0NNN (R118). -/
theorem test_decode_unknown : ([0x0000, 0x0123, 0x5121, 0x8008, 0x9111, 0xE0A2, 0xF0FF] : List Word).map decode
    = List.replicate 7 .unknown := by decide

/-! ## Ill-formed inputs are refused -/

/-- R116, word by word. -/
theorem test_wordOk_refuses : ([0x0000, 0x00E1, 0x5121, 0x8008, 0x800F, 0x9111, 0xE0A2, 0xF0FF] : List Word).map WellFormed.wordOk
    = List.replicate 8 false := by decide

/-- R11, decision D23: 0x1B0 is the last legal font base. -/
theorem test_params_refuses : WellFormed.params? 0x1B1 .wrap = none ∧ (WellFormed.params? 0x1B0 .wrap).isSome := by
  decide

/-- R332: 3584 bytes fit, 3585 do not. -/
theorem test_romOk_refuses : WellFormed.romOk (List.replicate 3585 0) = false
    ∧ WellFormed.romOk (List.replicate 3584 0) = true :=
  ⟨decide_eq_false (by rw [List.length_replicate]; decide), decide_eq_true List.length_replicate.le⟩

/-- The canonical form refuses an unsorted list, an address outside memory, a listed zero and a listed font byte. -/
theorem test_wf_refuses : ¬ Memory.wf .default [(0x301, 1), (0x300, 2)] ∧ ¬ Memory.wf .default [(0x1000, 1)]
    ∧ ¬ Memory.wf .default [(0x300, 0)] ∧ ¬ Memory.wf .default [(0x050, 0xF0)] ∧ Memory.wf .default [(0x050, 0xF1)] := by
  decide

/-! ## Single steps (95_test_vectors.md) -/

/-- The reset state with two registers set. -/
def regs (x : Reg) (a : Byte) (y : Reg) (b : Byte) : State := (State.reset.setV x a).setV y b

/-- Store bytes from an address up. -/
def poke (s : State) (a : Nat) (bs : List Byte) : State := s.setMem (Memory.writeList s.params s.mem a bs)

/-- One STEP of the word `w` placed at pc. -/
def run (s : State) (w : Nat) : State :=
  match step (s.withFetchWord 16 w) with
  | .next t => t
  | .fault _ => s
  | .refused _ => s

/-- One STEP as the state is. -/
def run0 (s : State) : State :=
  match step s with
  | .next t => t
  | .fault _ => s
  | .refused _ => s

/-- The lit pixels (x, y) among the given columns and rows, row by row. -/
def lit (s : State) (xs : List (Fin 64)) (ys : List (Fin 32)) : List (Nat × Nat) :=
  ys.flatMap fun y => (xs.filter fun x => Framebuffer.get s.fb (y, x)).map fun x => (x.val, y.val)

/-- T-F1. -/
theorem test_fetch_wraps : (run (poke (State.reset.setPc 0xFFF) 0 []) 0x1234).pc = 0x234 ∧ (run (State.reset.setPc 0xFFF) 0x1234).reported .outOfBounds := by decide

/-- T-F2. -/
theorem test_fetch_beyond : (run0 (State.reset.setPc 0x10FE)).pc = 0x1100 ∧ (run0 (State.reset.setPc 0x10FE)).out.anom = 0b0011#4 := by decide

/-- T-F3. -/
theorem test_fetch_odd : (run (State.reset.setPc 0x201) 0x602A).getV 0 = 0x2A ∧ (run (State.reset.setPc 0x201) 0x602A).pc = 0x203 := by decide

/-- T-F5. -/
theorem test_poweron_step : (run0 State.reset).pc = 0x202 ∧ (run0 State.reset).out.anom = 0b0010#4 := by decide

/-- T-R8. -/
theorem test_unknown_outputs : (run State.reset 0x0123).out = { anom := 0b0010, anomPc := 0x200, anomW := 0x0123, tone := false, status := none } := by decide

/-- T-C1. -/
theorem test_ret_empty : (run State.reset 0x00EE).pc = 0x202 ∧ (run State.reset 0x00EE).out.anom = 0b0100#4 := by decide

/-- T-C2. -/
theorem test_ret : (run ((State.reset.setStack [0x206]).setPc 0x214) 0x00EE).pc = 0x206 ∧ (run ((State.reset.setStack [0x206]).setPc 0x214) 0x00EE).sp = 0 := by decide

/-- T-C3. -/
theorem test_jp : (run State.reset 0x1ABC).pc = 0xABC := by decide

/-- T-C5. -/
theorem test_call : (run (State.reset.setPc 0x204) 0x2210).stack = [0x206] ∧ (run (State.reset.setPc 0x204) 0x2210).pc = 0x210 := by decide

/-- T-C6, the 17th STEP. -/
theorem test_call_full : (run (State.reset.setStack (List.replicate 16 0x202)) 0x2200).pc = 0x202 ∧ (run (State.reset.setStack (List.replicate 16 0x202)) 0x2200).out.anom = 0b1000#4 := by decide

/-- T-C7, T-C8. -/
theorem test_jpV0 : (run (State.reset.setV 0 0x04) 0xB300).pc = 0x304 ∧ (run (State.reset.setV 0 0xFF) 0xBFFF).pc = 0x10FE := by decide

/-- T-C9, T-C10. -/
theorem test_seVxNn : (run ((State.reset.setV 3 0x10).setPc 0x208) 0x3310).pc = 0x20C ∧ (run ((State.reset.setV 3 0x11).setPc 0x208) 0x3310).pc = 0x20A := by decide

/-- T-C17. -/
theorem test_seVxNn_wraps : (run ((State.reset.setV 3 0x10).setPc 0xFFFE) 0x3310).pc = 0x0002 := by decide

/-- T-C11, T-C12. -/
theorem test_sneVxNn : (run ((State.reset.setV 3 0x10).setPc 0x208) 0x4310).pc = 0x20A ∧ (run ((State.reset.setV 3 0x11).setPc 0x208) 0x4310).pc = 0x20C := by decide

/-- T-C13. -/
theorem test_seVxVy : (run ((regs 1 7 2 7).setPc 0x300) 0x5120).pc = 0x304 := by decide

/-- T-C14. -/
theorem test_seVxVy_strict : (run (regs 1 1 2 1) 0x5121).pc = 0x202 ∧ (run (regs 1 1 2 1) 0x5121).reported .unknownOpcode := by decide

/-- T-C15, T-C16. -/
theorem test_sneVxVy : (run ((regs 1 7 2 8).setPc 0x300) 0x9120).pc = 0x304 ∧ (run (regs 1 7 2 8) 0x9110).pc = 0x202 := by decide

/-- S1. -/
theorem test_ldVxNn : (run State.reset 0x6A9D).getV 0xA = 0x9D ∧ (run State.reset 0x6A9D).pc = 0x202 := by decide

/-- T-A2, T-A27. -/
theorem test_addVxNn : (run (State.reset.setV 0 0xFF) 0x7001).getV 0 = 0 ∧ (run (State.reset.setV 0 0xFF) 0x7001).getV 0xF = 0 ∧ (run (State.reset.setV 0xF 1) 0x7FFF).getV 0xF = 0 := by decide

/-- T-A3. -/
theorem test_ldVxVy : (run (State.reset.setV 1 0x33) 0x8010).getV 0 = 0x33 := by decide

/-- T-A4. -/
theorem test_or : (run ((regs 0 0x0F 1 0xF0).setV 0xF 9) 0x8011).getV 0 = 0xFF ∧ (run ((regs 0 0x0F 1 0xF0).setV 0xF 9) 0x8011).getV 0xF = 9 := by decide

/-- T-A5. -/
theorem test_and : (run (regs 0 0x3C 1 0x0F) 0x8012).getV 0 = 0x0C := by decide

/-- T-A6, T-A7. -/
theorem test_xor : (run (regs 0 0xFF 1 0x0F) 0x8013).getV 0 = 0xF0 ∧ (run (State.reset.setV 0 0x5A) 0x8003).getV 0 = 0 := by decide

/-- S2, T-A8. -/
theorem test_addVxVy : (run (regs 0 0xFF 1 0x01) 0x8014).getV 0 = 0 ∧ (run (regs 0 0xFF 1 0x01) 0x8014).getV 0xF = 1 ∧ (run ((regs 0 0x80 1 0x7F).setV 0xF 9) 0x8014).getV 0xF = 0 := by decide

/-- T-A21, T-A22. -/
theorem test_addVxVy_flag_last : (run (State.reset.setV 0xF 0x80) 0x8FF4).getV 0xF = 1 ∧ (run (regs 0xF 0xFF 2 1) 0x8F24).getV 0xF = 1 := by decide

/-- S5, T-A10. -/
theorem test_sub : (run (regs 0 0x03 1 0x05) 0x8015).getV 0 = 0xFE ∧ (run (regs 0 0x03 1 0x05) 0x8015).getV 0xF = 0 ∧ (run (regs 0 7 1 7) 0x8015).getV 0xF = 1 := by decide

/-- T-A23. -/
theorem test_sub_flag_last : (run (regs 0xF 3 1 5) 0x8F15).getV 0xF = 0 := by decide

/-- T-A13. -/
theorem test_shr : (run (regs 0 2 1 0xFF) 0x8016).getV 0 = 1 ∧ (run (regs 0 2 1 0xFF) 0x8016).getV 0xF = 0 := by decide

/-- T-A24. -/
theorem test_shr_flag_last : (run (State.reset.setV 0xF 3) 0x8F06).getV 0xF = 1 := by decide

/-- T-A14, T-A15. -/
theorem test_subn : (run (regs 0 3 1 5) 0x8017).getV 0 = 2 ∧ (run (regs 0 3 1 5) 0x8017).getV 0xF = 1 ∧ (run (regs 0 5 1 3) 0x8017).getV 0 = 0xFE := by decide

/-- T-A25. -/
theorem test_subn_flag_last : (run (regs 0xF 5 1 3) 0x8F17).getV 0xF = 0 := by decide

/-- T-A16, T-A17. -/
theorem test_shl : (run (State.reset.setV 0 0x81) 0x800E).getV 0 = 2 ∧ (run (State.reset.setV 0 0x81) 0x800E).getV 0xF = 1 ∧ (run (State.reset.setV 0 0x40) 0x800E).getV 0 = 0x80 := by decide

/-- T-A26. -/
theorem test_shl_flag_last : (run (State.reset.setV 0xF 0x80) 0x8F0E).getV 0xF = 1 := by decide

/-- T-A19, T-A20. -/
theorem test_rnd : (run { State.reset with rndIn := [0xA7] } 0xC30F).getV 3 = 0x07 ∧ (run { State.reset with rndIn := [0xA7] } 0xC300).getV 3 = 0 := by decide

/-- T-I1. -/
theorem test_ldI : (run State.reset 0xA300).I = 0x300 := by decide

/-- T-I2, T-I3. -/
theorem test_addIVx : (run ((State.reset.setV 2 5).setI 0xFFE) 0xF21E).I = 0x003 ∧ (run ((State.reset.setV 0 1).setI 0xFFF) 0xF01E).I = 0 ∧ (run ((State.reset.setV 0 1).setI 0xFFF) 0xF01E).getV 0xF = 0 := by decide

/-- T-I4, T-I6. -/
theorem test_ldFVx : (run (State.reset.setV 2 0x0A) 0xF229).I = 0x082 ∧ (run (State.reset.setV 0 0xFF) 0xF029).I = 0x54B := by decide

/-- S9. -/
theorem test_ldBVx : (List.range 3).map (fun k => (run ((State.reset.setV 0 157).setI 0x300) 0xF033).byteAt (0x300 + k)) = [1, 5, 7] := by decide

/-- T-I9. -/
theorem test_ldBVx_wraps : ([0xFFE, 0xFFF, 0x000].map (run ((State.reset.setV 0 255).setI 0xFFE) 0xF033).byteAt) = [2, 5, 5] ∧ (run ((State.reset.setV 0 255).setI 0xFFE) 0xF033).reported .outOfBounds := by decide

/-- T-I10. -/
theorem test_ldMemVx : ((List.range 4).map fun k => (run (((regs 0 1 1 2).setV 2 3).setI 0x400) 0xF255).byteAt (0x400 + k)) = [1, 2, 3, 0] ∧ (run (((regs 0 1 1 2).setV 2 3).setI 0x400) 0xF255).I = 0x400 := by decide

/-- T-I11, with V7 = 0x77 and V8 = 0x88. -/
theorem test_ldMemVx_wraps : (run ((regs 7 0x77 8 0x88).setI 0xFF8) 0xFF55).byteAt 0xFFF = 0x77 ∧ (run ((regs 7 0x77 8 0x88).setI 0xFF8) 0xFF55).byteAt 0 = 0x88 := by decide

/-- T-I12. -/
theorem test_ldVxMem : ((List.range 4).map fun k => (run (poke (State.reset.setI 0x300) 0x300 [1, 5, 7, 9]) 0xF265).getV (regOfNat k)) = [1, 5, 7, 0] := by decide

/-- T-I14. -/
theorem test_ldVxMem_wraps : (run (poke (poke (State.reset.setI 0xFFF) 0xFFF [0x11]) 0 [0x22]) 0xF165).getV 1 = 0x22 ∧ (run (poke (poke (State.reset.setI 0xFFF) 0xFFF [0x11]) 0 [0x22]) 0xF165).reported .outOfBounds := by decide

/-- T-D1. -/
theorem test_cls : (run ((State.reset.setFb (Framebuffer.set State.reset.fb (3, 5) true)).setV 0xF 7) 0x00E0).fb = Framebuffer.blank ∧ (run ((State.reset.setRedraw false).setV 0xF 7) 0x00E0).redraw = true := by decide

/-- T-D3. -/
theorem test_drw : lit (run ((regs 0 5 1 3).setI 0x050) 0xD015) [4, 5, 6, 7, 8, 9] [2, 3, 4, 5, 6, 7, 8] = [(5, 3), (6, 3), (7, 3), (8, 3), (5, 4), (8, 4), (5, 5), (8, 5), (5, 6), (8, 6), (5, 7), (6, 7), (7, 7), (8, 7)] := by decide

/-- T-D14. -/
theorem test_drw_collides : lit (run (((regs 0 5 1 3).setI 0x050).setFb (Framebuffer.set State.reset.fb (3, 5) true)) 0xD011) [4, 5, 6, 7, 8, 9] [3] = [(6, 3), (7, 3), (8, 3)] ∧ (run (((regs 0 5 1 3).setI 0x050).setFb (Framebuffer.set State.reset.fb (3, 5) true)) 0xD011).getV 0xF = 1 := by decide

/-- T-D5 rows 30 and 0 under wrap; T-D9 under clip. -/
theorem test_drw_edge : lit (run ((regs 0 60 1 30).setI 0x050) 0xD015) [60, 61, 62, 63] [30, 0] = [(60, 30), (61, 30), (62, 30), (63, 30), (60, 0), (63, 0)] ∧ lit (run ((({ State.reset with params := { Config.Params.default with edge := .clip } }).setV 0 62).setI 0x050) 0xD011) [62, 63, 0, 1] [0] = [(62, 0), (63, 0)] := by decide

/-- T-K7, T-K8. -/
theorem test_skp : (run ((State.reset.setV 0 0x17).setKeys (State.reset.key.set 7 true)) 0xE09E).pc = 0x204 ∧ (run (State.reset.setV 0 7) 0xE09E).pc = 0x202 := by decide

/-- T-K9, T-K10. -/
theorem test_sknp : (run ((State.reset.setV 0 7).setKeys (State.reset.key.set 7 true)) 0xE0A1).pc = 0x202 ∧ (run (State.reset.setV 0 7) 0xE0A1).pc = 0x204 := by decide

/-- T-K1. -/
theorem test_ldVxDt : (run (State.reset.setDT 0x3C) 0xF507).getV 5 = 0x3C := by decide

/-- T-K2. -/
theorem test_ldDtVx : (run (State.reset.setV 5 0x3C) 0xF515).DT = 0x3C := by decide

/-- T-K3, its first STEP. -/
theorem test_ldStVx : (run (State.reset.setV 1 2) 0xF118).ST = 2 := by decide

/-- T-K5, its first STEP. -/
theorem test_ldVxK : (run (State.reset.setKeys (State.reset.key.set 3 true)) 0xF50A).wait = some 5 ∧ (run State.reset 0xF50A).pc = 0x200 := by decide

/-- T-K5, its second STEP; T-F4. -/
theorem test_poll : (run0 ((State.reset.setWait (some 5)).setKeys ((State.reset.key.set 3 true).set 9 true))).getV 5 = 3 ∧ (run0 (State.reset.setWait (some 3))).pc = 0x200 ∧ (run0 (State.reset.setWait (some 3))).wait = some 3 := by decide

/-- T-K3, T-K11. -/
theorem test_tick : ((State.reset.setST 2).tick.out.tone, (State.reset.setST 1).tick.out.tone, State.reset.tick.out.tone) = (false, true, false) ∧ (State.reset.setDT 2).tick.DT = 1 ∧ State.reset.tick.DT = 0 := by decide

/-- T-K13. -/
theorem test_setKeys : allKeys.filter (State.reset.setKeysCommand 0x8001).pressed = [0, 15] := by decide

/-- T-R3 with a ROM of two bytes. -/
theorem test_load : (((poke State.reset 0x300 [7]).load [0x60, 0x05]).byteAt 0x200, ((poke State.reset 0x300 [7]).load [0x60, 0x05]).byteAt 0x201, ((poke State.reset 0x300 [7]).load [0x60, 0x05]).byteAt 0x300, ((poke State.reset 0x300 [7]).load [0x60, 0x05]).byteAt 0x050) = (0x60, 0x05, 0, 0xF0) := by decide

/-- T-R4, T-R5. -/
theorem test_resetCommand : (poke (poke State.reset 0x300 [1]) 0x050 [0]).resetCommand.byteAt 0x300 = 1 ∧ (poke (poke State.reset 0x300 [1]) 0x050 [0]).resetCommand.byteAt 0x050 = 0xF0 := by decide +kernel

/-! ## The hypotheses of the statements are met -/

/-- The reset state with one instruction placed for the next STEP. -/
def placed (w : Nat) : State := State.reset.withFetchWord 16 w

/-- The reset state waiting for a key, with the keys of the vector pressed. -/
def waiting (r : Reg) (keys : BitVec 16) : State := (State.reset.setKeysCommand keys).setWait (some r)

theorem witness_ResetValuesAfterPowerOnLoadReset : (List.replicate 3584 (0 : Byte)).length ≤ 3584 :=
  List.length_replicate.le

theorem witness_PowerOnMemoryIsFontAndZero : (79 < 80) ∧ (0x04F : Addr).toNat < State.reset.params.fontBase.val
    ∧ State.reset.params.fontBase.val + 80 ≤ (0x0A0 : Addr).toNat := by decide

theorem witness_LoadInstallsRomOrChangesNothing : 3584 < (List.replicate 3585 (0 : Byte)).length
    ∧ (List.replicate 3584 (0 : Byte)).length ≤ 3584 ∧ 0 < ([7] : List Byte).length
    ∧ 0x200 + ([7] : List Byte).length ≤ (0x201 : Addr).toNat ∧ (0x1FF : Addr).toNat < 0x200
    ∧ State.reset.params.fontBase.val + 80 ≤ (0x1FF : Addr).toNat := by
  refine ⟨by rw [List.length_replicate]; decide, List.length_replicate.le, ?_⟩; decide

theorem witness_ResetKeepsMemoryOutsideFont : (79 < 80) ∧ (0x04F : Addr).toNat < State.reset.params.fontBase.val
    ∧ State.reset.params.fontBase.val + 80 ≤ (0x0A0 : Addr).toNat := by decide

theorem witness_RunningWithoutOutputsAfterReset : (∃ t, command .reset (waiting 5 8) = .next t)
    ∧ ∃ t, command (.load [0x60]) (waiting 5 8) = .next t ∧ ([0x60] : List Byte).length ≤ 3584 :=
  ⟨⟨_, rfl⟩, _, rfl, by decide⟩

theorem witness_TonePulseOnlyOnLastTick : (∃ t, command .tick (State.reset.setST 1) = .next t)
    ∧ ∃ t u, onlyTicksChangeST [.tick, .ackRedraw, .tick] (State.reset.setST 3) t ∧ command .tick t = .next u :=
  ⟨⟨_, rfl⟩, _, _, ⟨_, rfl, by decide, _, rfl, fun _ => rfl, _, rfl, by decide, rfl⟩, rfl⟩

theorem witness_StepKeepsInvariant : (placed 0xF055).Inv ∧ ∃ t, step (placed 0xF055) = .next t :=
  ⟨⟨by decide, by decide, by decide⟩, _, rfl⟩

theorem witness_CommandSequencesKeepInvariant : State.reset.Inv ∧ ∃ t, runCommands [.tick, .step 0] State.reset = .next t :=
  ⟨⟨by decide, by decide, by decide⟩, _, rfl⟩

theorem witness_EncodeOfDecodeIsIdentity : decode 0x8FF6 = .instr (.shr 0xF 0xF) := by decide

/-- At pc 0xFFE and at pc 0xFFF. -/
theorem witness_UnknownWordsAreReportedNops : (State.reset.setPc 0xFFE).wait = none
    ∧ WellFormed.isUnknownWord (State.reset.setPc 0xFFE).fetchWord = true
    ∧ WellFormed.isUnknownWord (State.reset.setPc 0xFFF).fetchWord = true := by decide

theorem witness_PlacedWordIsFetched : 65535 < 65536 ∧ decodeTableWord 16 65382 = none ∧ decodeTableWord 16 65381 = some (.ldVxMem 0xF) := by
  decide

theorem witness_StepRunsDecodedInstruction : (placed 0x6A9D).wait = none
    ∧ decode (placed 0x6A9D).fetchWord = .instr (.ldVxNn 0xA 0x9D)
    ∧ decode ((State.reset.setPc 0xFFF).withFetchWord 16 0x6A9D).fetchWord = .instr (.ldVxNn 0xA 0x9D)
    ∧ decode State.reset.fetchWord = .unknown := by decide

/-- Keys 3 and 9, key 15 alone, and none. -/
theorem witness_KeyWaitPollsForLeastPressedKey : (waiting 5 0x0208).wait = some 5
    ∧ ((waiting 5 0x0208).key.get 3 = true ∧ ∀ j < 3, (waiting 5 0x0208).key.get j = false)
    ∧ ((waiting 5 0x8000).key.get 15 = true ∧ ∀ j < 15, (waiting 5 0x8000).key.get j = false)
    ∧ ∀ k : Key, (waiting 5 0).key.get k = false := by decide

theorem witness_CapturedKeyTestsPressed : (waiting 5 0x8000).wait = some 5
    ∧ ∃ t, step (waiting 5 0x8000) = .next t ∧ t.wait = none := ⟨rfl, _, rfl, rfl⟩

theorem witness_ModeChangesOnlyByKeyWait : (placed 0xF50A).wait = none ∧ (∃ t, step (placed 0xF50A) = .next t)
    ∧ (waiting 5 0).wait = some 5 ∧ ∃ t, step (waiting 5 0) = .next t := ⟨rfl, ⟨_, rfl⟩, rfl, _, rfl⟩

/-- FX15, FX18 and 00E0 with an effect, one each. -/
theorem witness_StepLeavesTimersKeypadRedraw :
    (∃ t, step ((State.reset.setV 5 7).withFetchWord 16 0xF515) = .next t ∧ t.DT ≠ State.reset.DT)
    ∧ (∃ t, step ((State.reset.setV 5 7).withFetchWord 16 0xF518) = .next t ∧ t.ST ≠ State.reset.ST)
    ∧ ∃ t, step ((State.reset.setRedraw false).withFetchWord 16 0x00E0) = .next t ∧ t.redraw ≠ false :=
  ⟨⟨_, rfl, by decide⟩, ⟨_, rfl, by decide⟩, _, rfl, by decide⟩

theorem witness_OutOfBoundsReportedExactly : (placed 0xF033).wait = none ∧ ∃ t, step (placed 0xF033) = .next t :=
  ⟨rfl, _, rfl⟩

/-- At the reset pc and at the last pc that a parked state may have. -/
theorem witness_ParkedStepLeavesStateUnchanged : (placed 0x1200).parked
    ∧ ((State.reset.setPc 0xFFE).withFetchWord 16 0x1FFE).parked :=
  ⟨⟨rfl, by decide, 0x200, by decide, by decide⟩, rfl, by decide, 0xFFE, by decide, by decide⟩

theorem witness_ProgramCounterByClass : (∃ t, exec (.jpV0 0xFFF) State.reset = .next t)
    ∧ (∃ t, exec (.call 0x300) (State.reset.setStack (List.replicate 15 0)) = .next t)
    ∧ (∃ t, exec (.call 0x300) (State.reset.setStack (List.replicate 16 0)) = .next t)
    ∧ (State.reset.setStack (List.replicate 15 0)).stack.length < 16
    ∧ (State.reset.setStack (List.replicate 16 0)).stack.length = 16
    ∧ (∃ t, execUnknown State.reset = .next t) ∧ (waiting 5 8).wait = some 5 ∧ (waiting 5 8).key.get 3 = true
    ∧ (∀ k, (waiting 5 0).key.get k = false) ∧ ∃ t, step (waiting 5 8) = .next t :=
  ⟨⟨_, rfl⟩, ⟨_, rfl⟩, ⟨_, rfl⟩, by decide, by decide, ⟨_, rfl⟩, by decide, by decide, by decide, _, rfl⟩

theorem witness_RegistersWrittenOnlyByDestinations :
    ∃ t, exec (.addVxVy 0 0) (State.reset.setV 0 0x80) = .next t ∧ t.V.get 0xF ≠ (State.reset.setV 0 0x80).V.get 0xF :=
  ⟨_, rfl, by decide⟩

theorem witness_MemoryWrittenOnlyByStores :
    ∃ t, exec (.ldMemVx 0xF) ((State.reset.setV 0xF 1).setI 0xFFF) = .next t
      ∧ t.byte 0x00E ≠ ((State.reset.setV 0xF 1).setI 0xFFF).byte 0x00E := ⟨_, rfl, by decide⟩

theorem witness_OtherStateWrittenOnlyByItsWriters :
    (∃ t, exec (.call 0x300) State.reset = .next t ∧ t.stack ≠ State.reset.stack)
    ∧ (∃ t, exec (.ldI 1) State.reset = .next t ∧ t.I ≠ State.reset.I)
    ∧ (∃ t, exec (.ldDtVx 0) (State.reset.setV 0 1) = .next t ∧ t.DT ≠ State.reset.DT)
    ∧ (∃ t, exec (.ldStVx 0) (State.reset.setV 0 1) = .next t ∧ t.ST ≠ State.reset.ST)
    ∧ (∃ t, exec .cls (State.reset.setRedraw false) = .next t ∧ t.redraw ≠ false)
    ∧ (∃ t, exec (.ldVxK 0) State.reset = .next t ∧ t.wait ≠ State.reset.wait)
    ∧ ∃ t, exec (.rnd 0 0) State.reset = .next t ∧ t.draws ≠ State.reset.draws :=
  ⟨⟨_, rfl, by decide⟩, ⟨_, rfl, by decide⟩, ⟨_, rfl, by decide⟩, ⟨_, rfl, by decide⟩, ⟨_, rfl, by decide⟩,
    ⟨_, rfl, by decide⟩, _, rfl, by decide⟩

theorem witness_ReturnPopsOrUnderflows : (State.reset.setStack [0x206]).stack = [] ++ [0x206]
    ∧ (State.reset.setStack (List.replicate 15 0 ++ [0x206])).stack = List.replicate 15 0 ++ [0x206]
    ∧ State.reset.stack = [] := by decide

theorem witness_CallPushesOrOverflows : (State.reset.setStack (List.replicate 15 0)).stack.length < 16
    ∧ (State.reset.setStack (List.replicate 16 0)).stack.length = 16 := by decide

theorem witness_CallThenReturnRestores : (State.reset.setStack (List.replicate 15 0)).stack.length < 16 := by decide

theorem witness_LogicOperations : 7 < 8 ∧ (0xF : Reg) ≠ 0 := by decide

theorem witness_RandomByteIsMasked : (placed 0xC30F).wait = none
    ∧ decode (placed 0xC30F).fetchWord = .instr (.rnd 3 0x0F) := by decide

theorem witness_RandomDrawTakesInputOrFreeValue : ({ State.reset with rndIn := [0xA7] } : State).rndIn = 0xA7 :: []
    ∧ State.reset.rndIn = [] := by decide

/-- The last byte below and the first above the stored ones. -/
theorem witness_StoreDecimalDigits : (∀ k < 3, (0x2FF : Addr) ≠ addr12 ((State.reset.setI 0x300).I.toNat + k))
    ∧ ∀ k < 3, (0x303 : Addr) ≠ addr12 ((State.reset.setI 0x300).I.toNat + k) := by decide

theorem witness_StoreRegisterBlock : (0xF : Reg) ≤ 0xF
    ∧ ∀ k ≤ (0xF : Reg).val, (0x310 : Addr) ≠ addr12 ((State.reset.setI 0x300).I.toNat + k) := by decide

theorem witness_StoreThenLoadRestoresRegisters : ∃ t, exec (.ldMemVx 2) ((regs 0 1 1 2).setI 0xFFF) = .next t
    ∧ (t.setV 0 9).I = t.I ∧ ∀ k ≤ (2 : Reg).val, (t.setV 0 9).byte (addr12 (t.I.toNat + k)) = t.byte (addr12 (t.I.toNat + k)) :=
  ⟨_, rfl, rfl, fun _ _ => rfl⟩

/-- In the middle of memory and across its end. -/
theorem witness_StoredWordIsFetchedNext :
    (∃ t, exec (.ldMemVx 1) (State.reset.setI 0x202) = .next t ∧ (1 : Reg).val = (0 : Reg).val + 1 ∧ (1 : Reg) ≤ 1
      ∧ addr12 ((State.reset.setI 0x202).I.toNat + (0 : Reg).val) = addr12 t.pc.toNat)
    ∧ ∃ t, exec (.ldMemVx 0xF) ((State.reset.setI 0xFF1).setPc 0xFFD) = .next t ∧ (0xF : Reg).val = (0xE : Reg).val + 1
      ∧ (0xF : Reg) ≤ 0xF
      ∧ addr12 (((State.reset.setI 0xFF1).setPc 0xFFD).I.toNat + (0xE : Reg).val) = addr12 t.pc.toNat :=
  ⟨⟨_, rfl, by decide, by decide, by decide⟩, _, rfl, by decide, by decide, by decide⟩

theorem witness_ReadAfterWrite : (0xFFF % 4096 ≠ 0x1000 % 4096) ∧ Memory.wf State.reset.params State.reset.mem := by
  decide

theorem witness_CanonicalMemoryIsUnique : Memory.wf .default [(0x050, 1), (0xFFF, 2)]
    ∧ ∀ a < 4096, Memory.read .default [(0x050, 1), (0xFFF, 2)] a = Memory.read .default [(0x050, 1), (0xFFF, 2)] a :=
  ⟨by decide, fun _ _ => rfl⟩

/-- Glyph 0 at (63, 31) under wrap: its top-left pixel, and a pixel it leaves. -/
theorem witness_DrawSpriteFlipsCoveredPixels :
    covers .wrap 63 31 5 (fun r => State.reset.byte (addr12 (0x050 + r))) (31, 63)
    ∧ ¬ covers .wrap 63 31 0 (fun r => State.reset.byte (addr12 (0x050 + r))) (31, 63) ∧ (0xE : Reg) ≠ 0xF :=
  ⟨⟨0, by decide, 0, by decide, by decide, by decide⟩, fun ⟨_, h, _⟩ => absurd h (Nat.not_lt_zero _), by decide⟩

theorem witness_DrawTwiceRestoresFramebuffer : ∃ t u, exec (.drw 0 1 5) ((regs 0 63 1 31).setI 0x050) = .next t
    ∧ exec (.drw 0 1 5) t = .next u
    ∧ (t.V.get 0).toNat % 64 = (((regs 0 63 1 31).setI 0x050).V.get 0).toNat % 64
    ∧ (t.V.get 1).toNat % 32 = (((regs 0 63 1 31).setI 0x050).V.get 1).toNat % 32 :=
  ⟨_, _, rfl, rfl, by decide, by decide⟩

/-- The ends of the column range, and a byte that tells a column from its mirror image. -/
theorem witness_SpriteBitPlacement : 0 < 8 ∧ 7 < 8 ∧ (0x20 : Byte).getLsbD (7 - 2) = true ∧ (0x20 : Byte).getLsbD (7 - 5) = false := by
  decide

/-- Key 0 and key 15, the high nibble of the register ignored. -/
theorem witness_KeyTestSkips : ((State.reset.setV 0 0x10).V.get 0).toNat % 16 = (0 : Key).val
    ∧ ((State.reset.setV 0 0x1F).V.get 0).toNat % 16 = (15 : Key).val := by decide

end Sys2Proof.Tests
end

namespace Sys2Proof.Machine

/-- Power-on is the restart that lists no byte of memory and clears the outputs (R330), so what holds after every restart
holds after power-on. -/
theorem State.powerOn_eq_restart (p : Config.Params) :
    State.powerOn p = (State.powerOn p).restart [] Outputs.empty := rfl

theorem State.powerOn_hasResetValues (p : Config.Params) : (State.powerOn p).HasResetValues := by
  rw [State.powerOn_eq_restart]
  exact State.restart_reset _ _ _

theorem State.load_hasResetValues (s : State) {rom : List Byte} (h : rom.length ≤ 3584) :
    (s.load rom).HasResetValues := by
  rw [State.load_fits s rom h]
  exact s.restart_reset _ _

theorem State.resetCommand_hasResetValues (s : State) : s.resetCommand.HasResetValues := by
  obtain ⟨m, hm, -, -⟩ := s.resetCommand_eq
  rw [hm]
  exact s.restart_reset m Outputs.empty

/-- Settles O1: power-on, a LOAD that fits and RESET are each a restart, and a restart leaves the reset values. -/
theorem resetValuesAfterPowerOnLoadReset : Obligations.ResetValuesAfterPowerOnLoadReset :=
  ⟨State.powerOn_hasResetValues,
   fun s rom h => ⟨s.load rom, rfl, s.load_hasResetValues h⟩,
   fun s => ⟨s.resetCommand, rfl, s.resetCommand_hasResetValues⟩⟩

end Sys2Proof.Machine

namespace Sys2Proof.Machine

/-- The check of an address reports OutOfBounds exactly when the address is above 0xFFF, and changes nothing else (R86). -/
theorem State.checkAddr_eq_withOutOfBounds (s : State) (a : Nat) :
    s.checkAddr a = { s with out := withOutOfBounds s.out (0xFFF < a) } := by
  simp only [State.checkAddr_eq, withOutOfBounds, decide_eq_true_eq]

/-- OutOfBounds joins the anomaly set once, whether one check or both report it (R302). -/
theorem withOutOfBounds_withOutOfBounds (o : Outputs) (b c : Bool) :
    withOutOfBounds (withOutOfBounds o b) c = withOutOfBounds o (b || c) := by
  cases b with
  | false => rfl
  | true =>
    cases c with
    | false => rfl
    | true => simp only [withOutOfBounds, Bool.or_self, if_true, anom_or_self]

/-- The two reads of a fetch check both addresses, and change nothing else (R84). -/
theorem State.fetchChecked_eq (s : State) :
    s.fetchChecked =
      { s with out := withOutOfBounds s.out (0xFFF < s.pc.toNat || 0xFFF < s.pc.toNat + 1) } := by
  simp only [State.fetchChecked, State.memRead, State.checkAddr_eq_withOutOfBounds, withOutOfBounds_withOutOfBounds]

/-- Settles O19: the word is the two masked bytes, the high one first, and the fetch is the two address checks and the
record of the word. -/
theorem fetchIsBigEndianAndMasked : Obligations.FetchIsBigEndianAndMasked := by
  intro s
  constructor
  · rw [s.byte_addr12, s.byte_addr12, s.fetchWord_toNat]
  · rw [State.fetch, s.fetchChecked_eq, State.setOut]

end Sys2Proof.Machine

namespace Sys2Proof

/-- Family 0x8 has no operation for the low nibbles 8..D and F (R116). -/
theorem decodeFamily8_eq_unknown (w : Word) :
    decodeFamily8 w = .unknown ↔ (Field.n w).val ∈ [0x8, 0x9, 0xA, 0xB, 0xC, 0xD, 0xF] := by
  unfold decodeFamily8
  generalize Field.n w = n
  fin_cases n <;> simp

/-- Family 0xE has two key tests, every other low byte is UNKNOWN (R116). -/
theorem decodeFamilyE_eq_unknown (w : Word) :
    decodeFamilyE w = .unknown ↔ (Field.nn w).toNat ∉ [0x9E, 0xA1] := by
  unfold decodeFamilyE
  split <;> simp_all

/-- Family 0xF has nine operations, every other low byte is UNKNOWN (R116). -/
theorem decodeFamilyF_eq_unknown (w : Word) :
    decodeFamilyF w = .unknown ↔
      (Field.nn w).toNat ∉ [0x07, 0x0A, 0x15, 0x18, 0x1E, 0x29, 0x33, 0x55, 0x65] := by
  unfold decodeFamilyF
  split <;> simp_all

/-- R116's list, taken apart by the family nibble as the decoder takes a word apart. -/
theorem isUnknownWord_iff_families (w : Word) : WellFormed.isUnknownWord w = true ↔
    ((Field.op w).toNat = 0x0 ∧ w ≠ 0x00E0 ∧ w ≠ 0x00EE) ∨
    ((Field.op w).toNat = 0x5 ∧ Field.n w ≠ 0) ∨
    ((Field.op w).toNat = 0x8 ∧ decodeFamily8 w = .unknown) ∨
    ((Field.op w).toNat = 0x9 ∧ Field.n w ≠ 0) ∨
    ((Field.op w).toNat = 0xE ∧ decodeFamilyE w = .unknown) ∨
    ((Field.op w).toNat = 0xF ∧ decodeFamilyF w = .unknown) := by
  simp only [decodeFamily8_eq_unknown, decodeFamilyE_eq_unknown, decodeFamilyF_eq_unknown,
    ne_eq, Fin.ext_iff, op_eq_div, n_eq_mod, nn_eq_mod]
  simp [WellFormed.isUnknownWord, or_assoc, and_assoc]

/-- The decoder answers UNKNOWN for the words of R116's list and for no other. -/
theorem decode_eq_unknown_iff (w : Word) : decode w = .unknown ↔ WellFormed.isUnknownWord w = true := by
  rw [isUnknownWord_iff_families]
  unfold decode
  split
  case h_1 hop => simp +contextual [hop, ite_eq_iff']
  case h_16 =>
    have hop : (Field.op w).toNat = 15 := op_eq_F fun k hk e => by interval_cases k <;> contradiction
    simp [hop]
  all_goals next hop => simp [hop]

end Sys2Proof

namespace Sys2Proof.Machine

/-- The recovery as a no-op changes the anomaly set and pc only (R304, R305, R306). -/
theorem State.recoverAsNop_eq (s : State) (A : Anomaly) :
    s.recoverAsNop A = { s with
      pc := s.pc + 2,
      out := { s.out with anom := s.out.anom ||| BitVec.shiftLeft 1#4 A.bit } } := rfl

/-- A STEP in mode Running whose word is UNKNOWN is the recovery of R306 after the fetch. -/
theorem step_unknown (s : State) (hw : s.wait = none) (hd : decode s.fetchWord = .unknown) :
    step s = .next (s.afterFetch.recoverAsNop .unknownOpcode) := by
  rw [step_running s hw, hd, execDecoded, execUnknown]

/-- Settles O15: the decoder's families leave out exactly the words of R116's list, and a STEP of such a word is the
fetch followed by the recovery that reports UnknownOpcode and moves pc on by 2. -/
theorem unknownWordsAreReportedNops : Obligations.UnknownWordsAreReportedNops := by
  refine ⟨decode_eq_unknown_iff, fun s hw hu => ?_⟩
  have hstep := step_unknown s hw ((decode_eq_unknown_iff _).mpr hu)
  rw [State.recoverAsNop_eq] at hstep
  refine ⟨_, hstep, ?_, rfl, rfl⟩
  dsimp only
  split <;> rfl

end Sys2Proof.Machine

namespace Sys2Proof.Machine

/-- Settles O6: SET_KEYS copies its vector bit by bit, SET_KEY is one write of the key vector, and ACK_REDRAW one write of
redraw; all three start from empty outputs. -/
theorem keypadAndRedrawCommands : Obligations.KeypadAndRedrawCommands := by
  refine ⟨fun s keys => ?_, fun s k p => ?_, fun s => ⟨Outputs.empty, rfl⟩⟩
  · obtain ⟨ks, hcommand, hget⟩ := s.setKeysCommand_eq keys
    exact ⟨ks, Outputs.empty, congrArg Host.Outcome.next hcommand, hget⟩
  · exact ⟨s.key.set k p, Outputs.empty, rfl, fun j => vector_get_set s.key k j p⟩

/-- Settles O20: the row of FX0A and its execution, then the poll's two cases, the least pressed key and none. -/
theorem keyWaitPollsForLeastPressedKey : Obligations.KeyWaitPollsForLeastPressedKey := by
  refine ⟨row_ldVxK, fun s x => rfl, fun s r hw => ⟨s.beginStep.out, rfl, rfl, rfl, ?_, ?_⟩⟩
  · intro k hk hlow
    have hfirst : s.firstPressed = some k := s.firstPressed_eq k hk hlow
    exact ⟨s.V.set r (BitVec.ofNat 8 k.val), step_waiting_some s r k hw hfirst, fun x => s.V_get_setV r x _⟩
  · exact step_waiting_none s r hw

end Sys2Proof.Machine

namespace Sys2Proof.Machine

section

variable (s : State)

/-! ## Where the shared operations leave pc (R143, R144) -/

/-- A sequential instruction: what it does before `advance` keeps pc (R144). -/
theorem State.advance_pc_of_pc_eq {s t : State} (h : t.pc = s.pc) : t.advance.pc = s.pc + 2 := congrArg (· + 2) h

@[simp] theorem State.recoverAsNop_pc (A : Anomaly) : (s.recoverAsNop A).pc = s.pc + 2 := rfl

theorem State.skipIf_pc (c : Bool) : (s.skipIf c).pc = if c then s.pc + 4 else s.pc + 2 := by
  cases c <;> rfl

/-- A skip on a negated condition, its targets in the order of the condition itself (R185, R187, R274). -/
theorem State.skipIf_not_pc (c : Bool) : (s.skipIf !c).pc = if c then s.pc + 2 else s.pc + 4 := by
  cases c <;> rfl

@[simp] theorem State.drawRnd_pc : s.drawRnd.2.pc = s.pc := by
  obtain ⟨r, rest, -, h⟩ | ⟨-, h⟩ := s.drawRnd_cases <;> rw [h]

@[simp] theorem State.checkBlock_pc (n : Nat) : (s.checkBlock n).pc = s.pc := by rw [s.checkBlock_eq]

@[simp] theorem State.storeDigits_pc (v : Byte) : (s.storeDigits v).pc = s.pc := by
  obtain ⟨m, h, -⟩ := s.storeDigits_eq v
  rw [h]

theorem State.storeRegs_pc {n : Nat} (hn : n ≤ 16) : (s.storeRegs n).pc = s.pc := by
  obtain ⟨m, h, -⟩ := s.storeRegs_eq n hn
  rw [h]

theorem State.loadRegs_pc {n : Nat} (hn : n ≤ 16) : (s.loadRegs n).pc = s.pc := by
  obtain ⟨v, h, -⟩ := s.loadRegs_eq n hn
  rw [h]

theorem State.pushAndJump_pc (w : Word) :
    (s.stack.length < 16 → (s.pushAndJump w).pc = w) ∧
    (16 ≤ s.stack.length → (s.pushAndJump w).pc = s.pc + 2) := by
  obtain ⟨hroom, h⟩ | ⟨hfull, h⟩ := s.pushAndJump_cases w
  · exact ⟨fun _ => by rw [h], fun hfull => by omega⟩
  · exact ⟨fun hroom => by omega, fun _ => by rw [h, State.recoverAsNop_pc]⟩

theorem State.popToPc_pc :
    if s.stack = [] then s.popToPc.pc = s.pc + 2 else s.stack.getLast? = some s.popToPc.pc := by
  obtain ⟨hnil, h⟩ | ⟨rest, target, hstack, h⟩ := s.popToPc_cases
  · rw [if_pos hnil, h, State.recoverAsNop_pc]
  · rw [h, if_neg (by simp [hstack]), hstack, List.getLast?_concat]

/-- The key of the key tests, as the statements write it (R273). -/
theorem keyIndex_eq_ofNat (vx : Byte) : keyIndex vx = Fin.ofNat 16 vx.toNat :=
  Fin.ext (keyIndex_val vx)

/-- The poll finds a key whenever one is pressed (R141). -/
theorem State.exists_firstPressed (h : ∃ k, s.pressed k = true) : ∃ k, s.firstPressed = some k := by
  obtain ⟨k, hk⟩ := h
  refine Option.ne_none_iff_exists'.mp fun hnone => ?_
  rw [s.firstPressed_none.mp hnone k] at hk
  cases hk

end

/-- Settles O26: jumps, calls, returns and skips by the lemma of their operation; every other instruction but FX0A ends
with `advance`, and what it does before keeps pc. -/
theorem programCounterByClass : Obligations.ProgramCounterByClass := by
  refine ⟨fun i s t h => ?_, fun s t h => ?_, fun s t r hw h => ⟨fun hk => ?_, fun hk => ?_⟩⟩
  · cases i with
    | jp nnn => cases h; exact zextAddr_toNat nnn
    | jpV0 nnn => cases h; exact jumpSum_toNat nnn (s.getV 0)
    | call nnn =>
      cases h
      obtain ⟨hroom, hfull⟩ := s.pushAndJump_pc (zextAddr nnn)
      exact ⟨fun hlt => by rw [hroom hlt, zextAddr_toNat], fun heq => hfull heq.ge⟩
    | ret => cases h; exact s.popToPc_pc
    | seVxNn x nn => cases h; simp [State.skipIf_pc, State.getV_eq]
    | seVxVy x y => cases h; simp [State.skipIf_pc, State.getV_eq]
    | sneVxNn x nn => cases h; simp [bne, State.skipIf_not_pc, State.getV_eq]
    | sneVxVy x y => cases h; simp [bne, State.skipIf_not_pc, State.getV_eq]
    | skp x => cases h; rw [State.skipIf_pc, keyIndex_eq_ofNat]; rfl
    | sknp x => cases h; rw [State.skipIf_not_pc, keyIndex_eq_ofNat]; rfl
    | ldVxK x => cases h; rfl
    | rnd x nn => cases h; exact State.advance_pc_of_pc_eq s.drawRnd_pc
    | drw x y n => cases h; exact State.advance_pc_of_pc_eq (s.checkBlock_pc n.val)
    | ldBVx x => cases h; exact State.advance_pc_of_pc_eq (s.storeDigits_pc (s.getV x))
    | ldMemVx x => cases h; exact State.advance_pc_of_pc_eq (s.storeRegs_pc x.isLt)
    | ldVxMem x => cases h; exact State.advance_pc_of_pc_eq (s.loadRegs_pc x.isLt)
    | _ => cases h; exact State.advance_pc_of_pc_eq rfl
  · cases h; rfl
  · obtain ⟨k, hfirst⟩ := s.exists_firstPressed hk
    rw [step_waiting_some s r k hw hfirst] at h
    cases h; rfl
  · rw [step_waiting_none s r hw hk] at h
    cases h; rfl

end Sys2Proof.Machine

namespace Sys2Proof.Machine

/-- The framebuffer port is the rows of the framebuffer one after the other, as the library's flattened vector. -/
theorem State.framebufferPort_eq (s : State) : s.framebufferPort = s.fb.flatten.toList := by
  simp only [State.framebufferPort, Vector.toList, Vector.flatten, Array.toList_flatten, Array.toList_map, List.map_map]
  rfl

theorem State.framebufferPort_getElem? (s : State) (y : Fin 32) (x : Fin 64) :
    s.framebufferPort[y.val * 64 + x.val]? = some (Framebuffer.get s.fb (y, x)) := by
  have hlt : y.val * 64 + x.val < 32 * 64 := by omega
  have hrow : (y.val * 64 + x.val) / 64 = y.val := by omega
  have hcol : (y.val * 64 + x.val) % 64 = x.val := by omega
  rw [s.framebufferPort_eq, Vector.getElem?_toList, Vector.getElem?_eq_getElem hlt, Vector.getElem_flatten]
  simp only [hrow, hcol]
  rfl

/-- Settles O57: the framebuffer port flattens 32 rows of 64 pixels, so index y * 64 + x divides into row y and column
x; the other two ports are their state element. -/
theorem outputPortsShowState : Obligations.OutputPortsShowState := by
  refine ⟨fun s => ⟨?_, s.framebufferPort_getElem?⟩, fun s => ⟨rfl, Option.isSome_iff_ne_none⟩⟩
  rw [s.framebufferPort_eq, Vector.length_toList]

end Sys2Proof.Machine

namespace Sys2Proof.Machine

/-- Settles O18: the STEP is the execution of the decoded word at the state after the fetch, and that state differs from
the old one in the outputs only. -/
theorem stepRunsDecodedInstruction : Obligations.StepRunsDecodedInstruction := by
  intro s hw
  refine ⟨s.afterFetch.out, rfl, rfl, rfl, fun i hd => ?_, fun hd => ?_⟩ <;>
    rw [step_running s hw, hd, execDecoded]

end Sys2Proof.Machine

namespace Sys2Proof.Machine

section

variable (s : State)

/-! ## Control flow: the shared operations as one frame equation per case (R143, R182, R305) -/

theorem State.pushAndJump_of_lt (w : Word) (hroom : s.stack.length < 16) :
    s.pushAndJump w = { s with stack := s.stack ++ [s.pc + 2], pc := w } := by
  obtain ⟨-, h⟩ | ⟨hfull, -⟩ := s.pushAndJump_cases w
  · exact h
  · omega

theorem State.pushAndJump_of_full (w : Word) (hfull : 16 ≤ s.stack.length) :
    s.pushAndJump w = s.recoverAsNop .stackOverflow := by
  obtain ⟨hroom, -⟩ | ⟨-, h⟩ := s.pushAndJump_cases w
  · omega
  · exact h

/-- A skip on a test that decides `p` writes pc only, by `p` (R143). -/
theorem State.skipIf_eq_of_iff {c : Bool} {p : Prop} [Decidable p] (h : c = true ↔ p) :
    s.skipIf c = { s with pc := if p then s.pc + 4 else s.pc + 2 } := by
  cases c with
  | true => rw [if_pos (h.mp rfl)]; rfl
  | false => rw [if_neg fun hp => Bool.false_ne_true (h.mpr hp)]; rfl

end

/-- Settles O30: the two cases of the pop; on an empty stack the recovery as a no-op sets bit 2 of the anomaly set. -/
theorem returnPopsOrUnderflows : Obligations.ReturnPopsOrUnderflows := by
  refine ⟨row_ret, fun s rest target hstack => ?_, fun s hnil => ?_⟩
  · exact congrArg Host.Outcome.next (s.popToPc_concat rest target hstack)
  · exact congrArg Host.Outcome.next ((s.popToPc_nil hnil).trans (s.recoverAsNop_eq .stackUnderflow))

/-- Settles O31: the two cases of the push; on a full stack the recovery as a no-op sets bit 3 of the anomaly set. -/
theorem callPushesOrOverflows : Obligations.CallPushesOrOverflows := by
  refine ⟨row_call, fun s nnn => ⟨fun hroom => ?_, fun hfull => ?_⟩⟩
  · exact ⟨zextAddr nnn, zextAddr_toNat nnn, congrArg Host.Outcome.next (s.pushAndJump_of_lt _ hroom)⟩
  · exact congrArg Host.Outcome.next
      ((s.pushAndJump_of_full _ hfull.ge).trans (s.recoverAsNop_eq .stackOverflow))

/-- Settles O33: both jumps write pc only, and neither target needs truncating to 16 bits. -/
theorem jumpsSetProgramCounter : Obligations.JumpsSetProgramCounter :=
  ⟨row_jp, row_jpV0,
   fun _ nnn => ⟨zextAddr nnn, zextAddr_toNat nnn, rfl⟩,
   fun s nnn => ⟨jumpSum nnn (s.getV 0), jumpSum_toNat nnn (s.getV 0), rfl⟩⟩

/-- Settles O34: each of the four is one skip, on a test that decides its comparison. -/
theorem comparingSkips : Obligations.ComparingSkips :=
  ⟨row_seVxNn, row_sneVxNn, row_seVxVy, row_sneVxVy,
   fun s _ _ => congrArg Host.Outcome.next (s.skipIf_eq_of_iff beq_iff_eq),
   fun s _ _ => congrArg Host.Outcome.next (s.skipIf_eq_of_iff bne_iff_ne),
   fun s _ _ => congrArg Host.Outcome.next (s.skipIf_eq_of_iff beq_iff_eq),
   fun s _ _ => congrArg Host.Outcome.next (s.skipIf_eq_of_iff bne_iff_ne)⟩

end Sys2Proof.Machine

namespace Sys2Proof.Machine

section

variable (s : State)

/-! ## Register loads and the ALU: the two ways an instruction finishes, as a frame and its register reads (R34, R144) -/

/-- A data result goes to V[x] alone; VF is no exception, so with x = F it is loaded as data. -/
theorem State.finish_frame (x : Reg) (b : Byte) :
    ∃ v, s.finish x b = { s with V := v, pc := s.pc + 2 } ∧ ∀ r, v.get r = if r = x then b else s.V.get r :=
  ⟨(s.setV x b).V, rfl, fun r => s.V_get_setV x r b⟩

/-- A data result followed by its flag: the flag is read back from VF even when x = F (R34). -/
theorem State.finishWithFlag_frame (x : Reg) (b : Byte) (c : Bool) :
    ∃ v, s.finishWithFlag x b c = { s with V := v, pc := s.pc + 2 } ∧
      ∀ r, v.get r = if r = 0xF then b2u c else if r = x then b else s.V.get r :=
  ⟨((s.setV x b).setVF c).V, rfl, fun r => s.V_get_setV_setVF x r b c⟩

/-- An instruction that loads one register (R200, R202). -/
theorem exec_load {s : State} {i : Instr} {x : Reg} {b : Byte} (h : exec i s = .next (s.finish x b)) :
    ∃ v, exec i s = .next { s with V := v, pc := s.pc + 2 } ∧ ∀ r, v.get r = if r = x then b else s.V.get r := by
  obtain ⟨v, hfinish, hget⟩ := s.finish_frame x b
  exact ⟨v, h.trans (congrArg Host.Outcome.next hfinish), hget⟩

/-- An instruction that writes one register, its result known bit by bit (R203–R205). -/
theorem exec_logic {s : State} {i : Instr} {x : Reg} {b : Byte} {bit : Nat → Bool}
    (h : exec i s = .next (s.finish x b)) (hbit : ∀ k, b.getLsbD k = bit k) :
    ∃ v, exec i s = .next { s with V := v, pc := s.pc + 2 } ∧
      (∀ k < 8, (v.get x).getLsbD k = bit k) ∧ ∀ r ≠ x, v.get r = s.V.get r := by
  obtain ⟨v, hexec, hget⟩ := exec_load h
  exact ⟨v, hexec, fun k _ => by rw [hget, if_pos rfl, hbit], fun r hr => by rw [hget, if_neg hr]⟩

/-- An instruction that writes a result and then a flag, both known as numbers (R206–R210). -/
theorem exec_arithmetic {s : State} {i : Instr} {x : Reg} {b result flag : Byte} {c : Bool}
    (h : exec i s = .next (s.finishWithFlag x b c)) (hresult : b = result) (hflag : b2u c = flag) :
    ∃ v, exec i s = .next { s with V := v, pc := s.pc + 2 } ∧
      ∀ r, v.get r = if r = 0xF then flag else if r = x then result else s.V.get r := by
  subst hresult hflag
  obtain ⟨v, hfinish, hget⟩ := s.finishWithFlag_frame x b c
  exact ⟨v, h.trans (congrArg Host.Outcome.next hfinish), hget⟩

/-! ## The random byte of a STEP (R19, R214) -/

theorem State.drawRnd_cons {rnd : Byte} {rest : List Byte} (h : s.rndIn = rnd :: rest) :
    s.drawRnd = (rnd, { s with rndIn := rest }) := by
  rw [State.drawRnd, h]

/-- The STEP command in mode Running executes the word at pc after the fetch, its random byte the next to be drawn. -/
theorem command_step_of_instr {i : Instr} (rnd : Byte) (hw : s.wait = none) (hd : decode s.fetchWord = .instr i) :
    command (.step rnd) s = restoreRnd s.rndIn (exec i { s.afterFetch with rndIn := rnd :: s.rndIn }) := by
  have hfetch : State.fetchWord { s with rndIn := rnd :: s.rndIn } = s.fetchWord :=
    State.fetchWord_congr rfl rfl rfl
  have hstep := step_running { s with rndIn := rnd :: s.rndIn } hw
  rw [State.afterFetch, hfetch, hd] at hstep
  exact congrArg (restoreRnd s.rndIn) hstep

/-- CXNN in a STEP command draws that STEP's byte and leaves the random input as it was. -/
theorem command_step_rnd {x : Reg} {nn : Byte} (rnd : Byte) (hw : s.wait = none)
    (hd : decode s.fetchWord = .instr (.rnd x nn)) :
    command (.step rnd) s = .next (s.afterFetch.finish x (rnd &&& nn)) := by
  rw [command_step_of_instr s rnd hw hd, exec, execRnd, State.drawRnd_cons _ rfl]
  rfl

end

/-- Settles O41: the STEP's byte, masked, is the data result of the state after the fetch. -/
theorem randomByteIsMasked : Obligations.RandomByteIsMasked := by
  refine ⟨row_rnd, fun s x nn rnd hw hd => ?_⟩
  obtain ⟨v, hfinish, hget⟩ := s.afterFetch.finish_frame x (rnd &&& nn)
  exact ⟨v, s.afterFetch.out, by rw [command_step_rnd s rnd hw hd, hfinish], hget⟩

/-- Settles O38: the sum as a number, and the carry as the comparison that decides it. -/
theorem addWithCarry : Obligations.AddWithCarry :=
  ⟨row_addVxVy, fun _ _ _ => exec_arithmetic rfl (byte_add_eq _ _) (b2u_decide _)⟩

/-- Settles O39: each difference as a number, and no borrow as the comparison that decides it. -/
theorem subtractionsWithNoBorrow : Obligations.SubtractionsWithNoBorrow :=
  ⟨row_sub, row_subn,
   fun _ _ _ => exec_arithmetic rfl (byte_sub_eq _ _) (b2u_decide _),
   fun _ _ _ => exec_arithmetic rfl (byte_sub_eq _ _) (b2u_decide _)⟩

/-- Settles O40: half or double of V[x] as a number, and the bit shifted out as one; y is in neither. -/
theorem shiftsByOne : Obligations.ShiftsByOne :=
  ⟨row_shr, row_shl,
   fun _ _ _ => exec_arithmetic rfl (byte_shr_eq _) (b2u_lowBit _),
   fun _ _ _ => exec_arithmetic rfl (byte_shl_eq _) (b2u_highBit _)⟩

/-- Settles O35: both are one data result, the immediate or the old V[y]. -/
theorem loadImmediateAndCopy : Obligations.LoadImmediateAndCopy :=
  ⟨row_ldVxNn, row_ldVxVy, fun _ _ _ => exec_load rfl, fun _ _ _ => exec_load rfl⟩

/-- Settles O37: each operation is one data result whose bits the library gives. -/
theorem logicOperations : Obligations.LogicOperations :=
  ⟨row_or, row_and, row_xor,
   fun _ _ _ => exec_logic rfl fun _ => BitVec.getLsbD_or,
   fun _ _ _ => exec_logic rfl fun _ => BitVec.getLsbD_and,
   fun _ _ _ => exec_logic rfl fun _ => BitVec.getLsbD_xor⟩

end Sys2Proof.Machine

namespace Sys2Proof.Machine

section

variable (s : State)

/-! ## Index and memory: masked addresses and the OutOfBounds report, as the statements write them (R86, R302) -/

/-- An anomaly set extended by OutOfBounds under `p` is `withOutOfBounds` of any test that decides `p`. -/
theorem withOutOfBounds_of_iff (o : Outputs) {p : Prop} [Decidable p] {beyond : Bool} (h : p ↔ beyond = true) :
    { o with anom := if p then o.anom ||| 1#4 else o.anom } = withOutOfBounds o beyond := by
  simp only [withOutOfBounds, h]

/-- The last of the `x + 1` addresses from `i` up is `i + x`. -/
theorem lastAddress_beyond_iff (i x : Nat) :
    (0 < x + 1 ∧ 0xFFF < i + (x + 1) - 1) ↔ decide (0xFFF < i + x) = true := by
  rw [decide_eq_true_eq]
  omega

/-- An address other than a masked one is another index of the memory list. -/
theorem toNat_ne_mask12 {a : Addr} {n : Nat} (h : a ≠ addr12 n) : a.toNat ≠ mask12 n :=
  fun e => h (BitVec.eq_of_toNat_eq (e.trans (toNat_ofNat12 n).symm))

/-- The byte at a masked address after memory is replaced. -/
theorem State.byte_addr12_mem (m : Memory) (n : Nat) :
    State.byte { s with mem := m } (addr12 n) = Memory.read s.params m (mask12 n) :=
  State.byte_addr12 _ n

/-! ## The three transfers, as a frame and the bytes or registers they write (R234–R236) -/

/-- FX33 writes memory, pc and the anomaly set. -/
theorem State.storeDigits_frame (v : Byte) : ∃ m,
    (s.storeDigits v).advance =
      { s with mem := m, pc := s.pc + 2, out := withOutOfBounds s.out (0xFFF < s.I.toNat + 2) } ∧
    State.byte { s with mem := m } (addr12 s.I.toNat) = hundreds v ∧
    State.byte { s with mem := m } (addr12 (s.I.toNat + 1)) = tens v ∧
    State.byte { s with mem := m } (addr12 (s.I.toNat + 2)) = ones v ∧
    ∀ a : Addr, (∀ k < 3, a ≠ addr12 (s.I.toNat + k)) → State.byte { s with mem := m } a = s.byte a := by
  obtain ⟨m, hstore, hhundreds, htens, hones, hkeep, -⟩ := s.storeDigits_eq v
  refine ⟨m, ?_, ?_, ?_, ?_, fun a ha => hkeep a.toNat fun k hk => toNat_ne_mask12 (ha k hk)⟩
  · rw [hstore, withOutOfBounds_of_iff s.out decide_eq_true_iff.symm]
    rfl
  · rw [State.byte_addr12_mem, hhundreds]
  · rw [State.byte_addr12_mem, htens]
  · rw [State.byte_addr12_mem, hones]

/-- FX55 writes memory, pc and the anomaly set. -/
theorem State.storeRegs_frame (x : Reg) : ∃ m,
    (s.storeRegs (x.val + 1)).advance =
      { s with mem := m, pc := s.pc + 2, out := withOutOfBounds s.out (0xFFF < s.I.toNat + x.val) } ∧
    (∀ k : Reg, k ≤ x → State.byte { s with mem := m } (addr12 (s.I.toNat + k.val)) = s.V.get k) ∧
    ∀ a : Addr, (∀ k ≤ x.val, a ≠ addr12 (s.I.toNat + k)) → State.byte { s with mem := m } a = s.byte a := by
  obtain ⟨m, hstore, hread, hkeep, -⟩ := s.storeRegs_eq (x.val + 1) x.isLt
  refine ⟨m, ?_, fun k hk => ?_, fun a ha => hkeep a.toNat fun k hk => toNat_ne_mask12 (ha k (Nat.le_of_lt_succ hk))⟩
  · rw [hstore, withOutOfBounds_of_iff s.out (lastAddress_beyond_iff s.I.toNat x.val)]
    rfl
  · rw [State.byte_addr12_mem, hread k.val (Nat.lt_succ_of_le hk), State.regOfNat_of_val, State.getV_eq]

/-- FX65 writes registers, pc and the anomaly set. -/
theorem State.loadRegs_frame (x : Reg) : ∃ v,
    (s.loadRegs (x.val + 1)).advance =
      { s with V := v, pc := s.pc + 2, out := withOutOfBounds s.out (0xFFF < s.I.toNat + x.val) } ∧
    ∀ r, v.get r = if r ≤ x then s.byte (addr12 (s.I.toNat + r.val)) else s.V.get r := by
  obtain ⟨v, hload, hget⟩ := s.loadRegs_eq (x.val + 1) x.isLt
  refine ⟨v, ?_, fun r => ?_⟩
  · rw [hload, withOutOfBounds_of_iff s.out (lastAddress_beyond_iff s.I.toNat x.val)]
    rfl
  · simp only [hget, State.byte_addr12, Nat.lt_succ_iff, Fin.le_def]

end

/-- Settles O44: the three digits as numbers, at three different masked addresses. -/
theorem storeDecimalDigits : Obligations.StoreDecimalDigits := by
  refine ⟨row_ldBVx, fun s x => ?_⟩
  obtain ⟨m, hstore, hhundreds, htens, hones, hkeep⟩ := s.storeDigits_frame (s.getV x)
  refine ⟨m, congrArg Host.Outcome.next hstore, ?_, ?_, ?_, hkeep⟩
  · rw [hhundreds, hundreds_toNat, State.getV_eq]
  · rw [htens, tens_toNat, State.getV_eq]
  · rw [hones, ones_toNat, State.getV_eq]

/-- Settles O45: at most 16 addresses from I up stay apart when masked, so each byte is the one its register stored. -/
theorem storeRegisterBlock : Obligations.StoreRegisterBlock := by
  refine ⟨row_ldMemVx, fun s x => ?_⟩
  obtain ⟨m, hstore, hread, hkeep⟩ := s.storeRegs_frame x
  exact ⟨m, congrArg Host.Outcome.next hstore, hread, hkeep⟩

/-- Settles O46: the loads write registers only, so every byte read is one of the state before. -/
theorem loadRegisterBlock : Obligations.LoadRegisterBlock := by
  refine ⟨row_ldVxMem, fun s x => ?_⟩
  obtain ⟨v, hload, hget⟩ := s.loadRegs_frame x
  exact ⟨v, congrArg Host.Outcome.next hload, hget⟩

/-- Settles O43: each writes I and pc only; the glyph address stays below 0x10000 for the whole of V[x], so it needs no
truncation. -/
theorem indexRegisterWriters : Obligations.IndexRegisterWriters :=
  ⟨row_ldI, row_addIVx, row_ldFVx,
   fun _ nnn => ⟨zextAddr nnn, zextAddr_toNat nnn, rfl⟩,
   fun s x => ⟨indexSum s.I (s.getV x), indexSum_toNat s.I (s.getV x), rfl⟩,
   fun s x => ⟨glyphAddr s.params (s.getV x), glyphAddr_toNat s.params (s.getV x), rfl⟩⟩

end Sys2Proof.Machine

namespace Sys2Proof.Machine

/-! ## Where a sprite bit lands (R252) -/

theorem place_wrap_eq_some_iff (ax ay : Nat) (p : Pixel) :
    place .wrap ax ay = some p ↔ p.2.val = ax % 64 ∧ p.1.val = ay % 32 := by
  simp only [place, Option.some.injEq, Prod.ext_iff, Fin.ext_iff]
  omega

theorem place_clip (ax ay : Nat) :
    place .clip ax ay = if h : ax < 64 ∧ ay < 32 then some (⟨ay, h.2⟩, ⟨ax, h.1⟩) else none := rfl

theorem place_clip_eq_some_iff (ax ay : Nat) (p : Pixel) :
    place .clip ax ay = some p ↔ p.2.val = ax ∧ p.1.val = ay := by
  obtain ⟨py, px⟩ := p
  rw [place_clip]
  by_cases hin : ax < 64 ∧ ay < 32
  · simp only [dif_pos hin, Option.some.injEq, Prod.mk.injEq, Fin.ext_iff]
    omega
  · simp only [dif_neg hin, reduceCtorEq, false_iff]
    omega

theorem place_clip_eq_none_iff (ax ay : Nat) : place .clip ax ay = none ↔ 64 ≤ ax ∨ 32 ≤ ay := by
  rw [place_clip, dite_eq_right_iff]
  simp only [reduceCtorEq, imp_false]
  omega

/-- Settles O54: rows, columns and start are the definitions DXYN calls; `place` by its lemma for each policy. -/
theorem spriteBitPlacement : Obligations.SpriteBitPlacement :=
  ⟨fun _ _ => rfl, fun _ _ _ => rfl, fun _ => rfl, fun _ => rfl,
   fun ax ay p => ⟨place_wrap_eq_some_iff ax ay p, place_clip_eq_some_iff ax ay p, place_clip_eq_none_iff ax ay,
     Option.some_ne_none _⟩⟩

/-- Settles O51: the framebuffer becomes the blank one. -/
theorem clearScreen : Obligations.ClearScreen :=
  ⟨row_cls, fun _ => ⟨Framebuffer.blank, rfl, Framebuffer.get_blank⟩⟩

section

variable (s : State)

/-! ## DXYN: the drawn canvas, and the instruction as a frame (R251, R253) -/

theorem b2u_eq_one_iff (b : Bool) : b2u b = 1 ↔ b = true := by cases b <;> decide

theorem b2u_eq_one_or_zero (b : Bool) : b2u b = 1 ∨ b2u b = 0 := by cases b <;> decide

/-- The pixels that DXYN's sprite covers in the state `s`. -/
abbrev State.spriteCovers (x y : Reg) (n : Nat) : Pixel → Prop :=
  covers s.params.edge ((s.V.get x).toNat % 64) ((s.V.get y).toNat % 32) n
    (fun r => s.byte (addr12 (s.I.toNat + r)))

/-- The canvas of DXYN is the old framebuffer under one layer, the sprite of the masked bytes from I, and starts without
a collision. -/
theorem State.sprite_draws (x y : Reg) {n : Nat} (hn : n ≤ 32) :
    Draws { fb := s.fb, hit := false } (s.sprite x y n) (s.spriteCovers x y n) := by
  have hrows : (fun r => s.byte (addr12 (s.I.toNat + r))) = fun r => s.byteAt (s.effAddr r) :=
    funext fun r => s.byte_addr12 _
  rw [State.spriteCovers, hrows]
  exact Canvas.drawSprite_draws _ _ _ n _ _ hn

/-- The row checks report OutOfBounds exactly when there is a row and the last one is above 0xFFF (R86, R253). -/
theorem State.checkBlock_eq_withOutOfBounds (n : Nat) :
    s.checkBlock n = { s with out := withOutOfBounds s.out (0 < n && 0xFFF < s.I.toNat + n - 1) } := by
  simp only [s.checkBlock_eq, withOutOfBounds, Bool.and_eq_true, decide_eq_true_eq]

/-- DXYN writes the framebuffer, VF, redraw, pc and the anomaly set. -/
theorem exec_drw (x y : Reg) (n : Fin 16) :
    exec (.drw x y n) s = .next { s with
      fb := (s.sprite x y n.val).fb, V := (s.setVF (s.sprite x y n.val).hit).V, redraw := true, pc := s.pc + 2,
      out := withOutOfBounds s.out (0 < n.val && 0xFFF < s.I.toNat + n.val - 1) } := by
  rw [exec, execDrw, s.checkBlock_eq_withOutOfBounds]
  rfl

end

/-- Settles O52: DXYN draws its rows as one layer, in which no two sprite bits meet, so that a covered pixel is flipped
once and the collision is a covered pixel that was set. -/
theorem drawSpriteFlipsCoveredPixels : Obligations.DrawSpriteFlipsCoveredPixels := by
  refine ⟨row_drw, fun s x y n => ⟨_, _, exec_drw s x y n, ?_⟩⟩
  obtain ⟨hflipped, hkept, hhit⟩ := s.sprite_draws x y (n := n.val) (by omega)
  have hVF : (s.setVF (s.sprite x y n.val).hit).V.get 0xF = b2u (s.sprite x y n.val).hit := by
    rw [State.V_get_setVF, if_pos rfl]
  refine ⟨hflipped, hkept, ?_, ?_, fun r hr => by rw [State.V_get_setVF, if_neg hr]⟩
  · rw [hVF]
    exact b2u_eq_one_or_zero _
  · rw [hVF, b2u_eq_one_iff, hhit]
    exact or_iff_right Bool.false_ne_true

end Sys2Proof.Machine

namespace Sys2Proof.Machine

/-- Settles O55: FX07 is a register load; FX15 and FX18 each write one timer before pc moves on, the outputs untouched. -/
theorem timerTransfers : Obligations.TimerTransfers :=
  ⟨row_ldVxDt, row_ldDtVx, row_ldStVx, fun _ _ => exec_load rfl, fun _ _ => rfl, fun _ _ => rfl⟩

/-- The key a key test selects is the one that the low 4 bits of the byte name (R273, R274). -/
theorem keyIndex_eq_of_mod {vx : Byte} {k : Key} (h : vx.toNat % 16 = k.val) : keyIndex vx = k :=
  Fin.ext ((keyIndex_val vx).trans h)

/-- The test of EX9E and EXA1 reads the level state of the selected key. -/
theorem State.pressed_keyIndex (s : State) {x : Reg} {k : Key} (h : (s.V.get x).toNat % 16 = k.val) :
    s.pressed (keyIndex (s.getV x)) = s.key.get k :=
  congrArg s.key.get (keyIndex_eq_of_mod h)

/-- Settles O56: both are one skip, on the level state of the selected key or on its negation. -/
theorem keyTestSkips : Obligations.KeyTestSkips := by
  refine ⟨row_skp, row_sknp, fun s x k hk => ?_, fun s x k hk => ?_⟩
  · rw [exec, execSkp, s.pressed_keyIndex hk, s.skipIf_eq_of_iff Iff.rfl]
  · rw [exec, execSknp, s.pressed_keyIndex hk, s.skipIf_eq_of_iff (Bool.not_eq_true' _).to_iff]

end Sys2Proof.Machine

namespace Sys2Proof.Machine

/-! ## TICK: its tone and the timer it leaves (R310, R311) -/

theorem State.tick_tone (s : State) : s.tick.out.tone = true ↔ s.ST.toNat = 1 :=
  beq_iff_eq.trans BitVec.toNat_eq

theorem State.tick_ST (s : State) : s.tick.ST.toNat = s.ST.toNat - 1 := countDown_toNat s.ST

/-- Settles O7: TICK counts both timers down and replaces the outputs, nothing else, in every mode. -/
theorem tickCountsTimersDown : Obligations.TickCountsTimersDown := fun s =>
  ⟨countDown s.DT, countDown s.ST, s.tick.out, rfl, countDown_toNat s.DT, s.tick_ST, s.tick_tone⟩

/-! ## The outputs of a STEP: of those the fetch left, execution touches the anomaly set only (R302, R311) -/

/-- From `s` to `t` no output but the anomaly set changes. -/
def State.OutputsKeptButAnom (s t : State) : Prop := t.out = { s.out with anom := t.out.anom }

theorem State.OutputsKeptButAnom.tone {s t : State} (h : s.OutputsKeptButAnom t) : t.out.tone = s.out.tone := by
  unfold State.OutputsKeptButAnom at h
  rw [h]

section

variable (s : State)

theorem State.popToPc_outputs : s.OutputsKeptButAnom s.popToPc := by
  obtain ⟨-, h⟩ | ⟨rest, target, -, h⟩ := s.popToPc_cases <;> rw [h] <;> rfl

theorem State.pushAndJump_outputs (w : Word) : s.OutputsKeptButAnom (s.pushAndJump w) := by
  obtain ⟨-, h⟩ | ⟨-, h⟩ := s.pushAndJump_cases w <;> rw [h] <;> rfl

theorem State.skipIf_outputs (c : Bool) : s.OutputsKeptButAnom (s.skipIf c) := by
  cases c <;> rfl

theorem State.drawRnd_outputs : s.OutputsKeptButAnom s.drawRnd.2 := by
  obtain ⟨r, rest, -, h⟩ | ⟨-, h⟩ := s.drawRnd_cases <;> rw [h] <;> rfl

theorem State.storeDigits_outputs (v : Byte) : s.OutputsKeptButAnom (s.storeDigits v) := by
  obtain ⟨m, h, -⟩ := s.storeDigits_eq v
  rw [h]
  rfl

theorem State.storeRegs_outputs {n : Nat} (hn : n ≤ 16) : s.OutputsKeptButAnom (s.storeRegs n) := by
  obtain ⟨m, h, -⟩ := s.storeRegs_eq n hn
  rw [h]
  rfl

theorem State.loadRegs_outputs {n : Nat} (hn : n ≤ 16) : s.OutputsKeptButAnom (s.loadRegs n) := by
  obtain ⟨v, h, -⟩ := s.loadRegs_eq n hn
  rw [h]
  rfl

theorem State.checkBlock_outputs (n : Nat) : s.OutputsKeptButAnom (s.checkBlock n) := by
  rw [s.checkBlock_eq]
  rfl

end

/-- Execution changes no output but the anomaly set: by the lemma of its shared operation where an instruction has one;
the others write no output at all. -/
theorem exec_outputs {i : Instr} {s t : State} (h : exec i s = .next t) : s.OutputsKeptButAnom t := by
  cases i with
  | ret => cases h; exact s.popToPc_outputs
  | call nnn => cases h; exact s.pushAndJump_outputs (zextAddr nnn)
  | seVxNn x nn => cases h; exact s.skipIf_outputs _
  | sneVxNn x nn => cases h; exact s.skipIf_outputs _
  | seVxVy x y => cases h; exact s.skipIf_outputs _
  | sneVxVy x y => cases h; exact s.skipIf_outputs _
  | skp x => cases h; exact s.skipIf_outputs _
  | sknp x => cases h; exact s.skipIf_outputs _
  | rnd x nn => cases h; exact s.drawRnd_outputs
  | drw x y n => cases h; exact s.checkBlock_outputs n.val
  | ldBVx x => cases h; exact s.storeDigits_outputs (s.getV x)
  | ldMemVx x => cases h; exact s.storeRegs_outputs x.isLt
  | ldVxMem x => cases h; exact s.loadRegs_outputs x.isLt
  | _ => cases h; rfl

/-! ## The tone of each command (R311) -/

/-- No STEP emits the tone: it starts without one, and neither execution nor the poll sets it. -/
theorem step_tone {s t : State} (h : step s = .next t) : t.out.tone = false := by
  obtain ⟨i, -, -, hexec⟩ | ⟨-, -, rfl⟩ | ⟨r, -, -, rfl⟩ | ⟨r, k, -, -, rfl⟩ := step_cases s t h
  · exact (exec_outputs hexec).tone
  · rfl
  · rfl
  · rfl

theorem State.load_tone (s : State) (rom : List Byte) : (s.load rom).out.tone = false := by
  rcases Nat.lt_or_ge 3584 rom.length with hlarge | hfits
  · rw [s.load_tooLarge rom hlarge]
    rfl
  · rw [s.load_fits rom hfits]
    rfl

theorem command_tone_of_ne_tick {c : Command} {s t : State} (hc : c ≠ .tick) (h : command c s = .next t) :
    t.out.tone = false := by
  cases c with
  | step r =>
    obtain ⟨u, hstep, rfl⟩ := restoreRnd_next h
    have htone : u.out.tone = false := step_tone hstep
    exact htone
  | tick => exact absurd rfl hc
  | load rom => cases h; exact s.load_tone rom
  | _ => cases h; rfl

/-- A run in which only TICKs change ST takes one off it per TICK, down to 0. -/
theorem onlyTicksChangeST_ST {cs : List Command} {s t : State} (h : onlyTicksChangeST cs s t) :
    t.ST.toNat = s.ST.toNat - cs.count .tick := by
  induction cs generalizing s with
  | nil => cases h; rfl
  | cons c cs ih =>
    obtain ⟨u, hcommand, hkeep, hrest⟩ := h
    rw [ih hrest]
    by_cases hc : c = .tick
    · subst hc
      cases hcommand
      rw [s.tick_ST, List.count_cons_self]
      omega
    · rw [hkeep hc, List.count_cons_of_ne hc]

/-- Settles O8: every command but TICK clears the tone; over a run, ST is what the TICKs of the run left of it. -/
theorem tonePulseOnlyOnLastTick : Obligations.TonePulseOnlyOnLastTick := by
  refine ⟨fun c s t h => ?_, fun cs s t u hrun htick => ?_⟩
  · by_cases hc : c = .tick
    · subst hc
      cases h
      rw [s.tick_tone, eq_self, true_and]
      exact (BitVec.toNat_eq (x := s.ST) (y := 1)).symm
    · simp [command_tone_of_ne_tick hc h, hc]
  · have hleft : t.ST.toNat = s.ST.toNat - cs.count .tick := onlyTicksChangeST_ST hrun
    cases htick
    rw [t.tick_tone, hleft]
    omega

end Sys2Proof.Machine

namespace Sys2Proof.Machine

/-! ## The bytes of memory that power-on, LOAD and RESET leave (R330, R332, R335) -/

theorem addr12_toNat {a : Nat} (h : a < 4096) : (addr12 a).toNat = a := (toNat_ofNat12 a).trans (mask12_of_lt h)

/-- Every font address lies below the program, so masking keeps it (R11, decision D23). -/
theorem fontAddress_toNat (p : Config.Params) {k : Nat} (hk : k < 80) :
    (addr12 (p.fontBase.val + k)).toNat = p.fontBase.val + k ∧ p.fontBase.val + k < 0x200 := by
  have hbase := p.fontBase.isLt
  exact ⟨addr12_toNat (by omega), by omega⟩

section

variable (s : State)

theorem State.powerOn_byte (p : Config.Params) (a : Addr) : (State.powerOn p).byte a = unlisted p a.toNat := rfl

/-- After a LOAD that fits, the ROM lies at 0x200 and every other byte has its power-on value. -/
theorem State.load_byte {rom : List Byte} (h : rom.length ≤ 3584) (a : Addr) :
    (s.load rom).byte a = if 0x200 ≤ a.toNat ∧ a.toNat < 0x200 + rom.length then rom.getD (a.toNat - 0x200) 0
      else unlisted s.params a.toNat := by
  rw [s.load_fits rom h]
  exact Memory.read_writeList s.params [] 0x200 a.toNat rom

theorem State.load_byte_rom {rom : List Byte} (h : rom.length ≤ 3584) {k : Nat} (hk : k < rom.length) :
    some ((s.load rom).byte (addr12 (0x200 + k))) = rom[k]? := by
  rw [s.load_byte h, addr12_toNat (by omega), if_pos (by omega), Nat.add_sub_cancel_left]
  exact getD_eq_getElem? hk

theorem State.load_byte_outside {rom : List Byte} (h : rom.length ≤ 3584) {a : Addr}
    (ha : a.toNat < 0x200 ∨ 0x200 + rom.length ≤ a.toNat) : (s.load rom).byte a = unlisted s.params a.toNat := by
  rw [s.load_byte h, if_neg (by omega)]

/-- After RESET, the font lies at FONT_BASE and every other byte is the old one. -/
theorem State.resetCommand_byte (a : Addr) :
    s.resetCommand.byte a =
      if s.params.fontBase.val ≤ a.toNat ∧ a.toNat < s.params.fontBase.val + 80
      then Config.font.getD (a.toNat - s.params.fontBase.val) 0 else s.byte a := by
  obtain ⟨m, hm, hread, -⟩ := s.resetCommand_eq
  rw [hm]
  exact hread a.toNat

/-- A restart leaves mode Running and shows the outputs it is given (R331). -/
theorem State.restart_runningWithoutOutputs (m : Memory) {o : Outputs} (hanom : o.anom = 0) (htone : o.tone = false) :
    (s.restart m o).wait = none ∧ (s.restart m o).out.anom = 0 ∧ (s.restart m o).out.tone = false :=
  ⟨rfl, hanom, htone⟩

/-- The word a STEP fetches is 0 where both its bytes are. -/
theorem State.fetchWord_eq_zero (hhi : s.byteAt s.pc.toNat = 0) (hlo : s.byteAt (s.pc.toNat + 1) = 0) :
    s.fetchWord = 0 := by
  rw [s.fetchWord_eq, hhi, hlo]
  rfl

end

/-- Both bytes at the reset pc lie above every font (R330). -/
theorem State.powerOn_fetchWord (p : Config.Params) : (State.powerOn p).fetchWord = 0 := by
  have hbase := p.fontBase.isLt
  refine State.fetchWord_eq_zero _ ?_ ?_
  · exact unlisted_zero p 0x200 (by omega)
  · exact unlisted_zero p 0x201 (by omega)

/-- Settles O3: a ROM that does not fit changes the outputs only; after one that fits, every byte is the ROM's or, outside
0x200 to the ROM's end, the power-on byte, which is the font's or 0. -/
theorem loadInstallsRomOrChangesNothing : Obligations.LoadInstallsRomOrChangesNothing := by
  intro s rom
  have hbase := s.params.fontBase.isLt
  refine ⟨fun hlarge => ⟨_, congrArg Host.Outcome.next (s.load_tooLarge rom hlarge), rfl⟩, fun hfits => ?_⟩
  have hload := s.load_fits rom hfits
  refine ⟨s.load rom, rfl, s.load_hasResetValues hfits, by rw [hload]; rfl, by rw [hload]; rfl,
    fun k hk => s.load_byte_rom hfits hk, fun k hk => ?font, fun a ha => ?aboveRom, fun a ha hfont => ?belowRom⟩
  case font =>
    obtain ⟨haddr, hbelow⟩ := fontAddress_toNat s.params hk
    rw [s.load_byte_outside hfits (by omega), haddr, unlisted_font s.params k hk]
  case aboveRom =>
    rw [s.load_byte_outside hfits (.inr ha), unlisted_zero s.params a.toNat (by omega)]
  case belowRom =>
    rw [s.load_byte_outside hfits (.inl ha), unlisted_zero s.params a.toNat hfont]

/-- Settles O4: RESET is a restart whose memory is the old one with the font written over it. -/
theorem resetKeepsMemoryOutsideFont : Obligations.ResetKeepsMemoryOutsideFont := by
  refine fun s => ⟨s.resetCommand, rfl, s.resetCommand_hasResetValues, rfl, fun k hk => ?_, fun a ha => ?_⟩
  · rw [s.resetCommand_byte, (fontAddress_toNat s.params hk).left, if_pos (by omega), Nat.add_sub_cancel_left]
    exact getD_eq_getElem? (by rwa [font_length])
  · rw [s.resetCommand_byte, if_neg (by omega)]

/-- Settles O2: power-on lists no byte, so each reads as the font at FONT_BASE or as 0, the two bytes at the reset pc among
the latter. -/
theorem powerOnMemoryIsFontAndZero : Obligations.PowerOnMemoryIsFontAndZero := by
  refine ⟨fun p => ⟨State.powerOn_hasResetValues p, fun k hk => ?_, fun a ha => ?_, State.powerOn_fetchWord p,
    by decide⟩, rfl, rfl⟩
  · rw [State.powerOn_byte, (fontAddress_toNat p hk).left, unlisted_font p k hk]
  · rw [State.powerOn_byte, unlisted_zero p a.toNat ha]

/-- Settles O5: power-on, a LOAD that fits and RESET are each a restart with neither anomaly nor tone in its outputs. -/
theorem runningWithoutOutputsAfterReset : Obligations.RunningWithoutOutputsAfterReset := by
  refine ⟨fun p => ?_, fun s t c h hc => ?_⟩
  · rw [State.powerOn_eq_restart]
    exact State.restart_runningWithoutOutputs _ _ rfl rfl
  · obtain rfl | ⟨rom, hfits, rfl⟩ := hc
    · cases h
      exact s.restart_runningWithoutOutputs _ rfl rfl
    · cases h
      rw [s.load_fits rom hfits]
      exact s.restart_runningWithoutOutputs _ rfl rfl

/-- A STEP of a jump changes pc and the outputs of its fetch, nothing else (R142, R181). -/
theorem step_jp (s : State) {nnn : Addr} (hw : s.wait = none) (hd : decode s.fetchWord = .instr (.jp nnn)) :
    step s = .next (s.afterFetch.setPc (zextAddr nnn)) := by
  rw [step_running s hw, hd, execDecoded]
  rfl

/-- Settles O25: the jump writes the old pc back, and at most 0xFFE the fetch stays inside memory. -/
theorem parkedStepLeavesStateUnchanged : Obligations.ParkedStepLeavesStateUnchanged := by
  rintro s ⟨hw, hpc, nnn, hd, htarget⟩
  have hback : zextAddr nnn = s.pc := BitVec.eq_of_toNat_eq ((zextAddr_toNat nnn).trans htarget)
  refine ⟨s.afterFetch.out, ?_, if_neg (by omega)⟩
  rw [step_jp s hw hd, hback]
  rfl

end Sys2Proof.Machine

namespace Sys2Proof

section

variable (o : BitVec 4)

/-! ## Decoding what a form of R112 lays out: the word has the fixed bits of its row, so it decodes to the row's
instruction of its fields, and its fields are the operands it was laid out from -/

theorem decode_formNNN {ins : Addr → Instr} (row : Machine.rowIs 0xF000 (formNNN o 0) fun w => ins (Field.nnn w))
    (nnn : Addr) : decode (formNNN o nnn) = .instr (ins nnn) := by
  have h := (row _).mpr (formNNN_and o nnn)
  dsimp only at h
  rwa [nnn_formNNN] at h

theorem decode_formXNN {ins : Reg → Byte → Instr}
    (row : Machine.rowIs 0xF000 (formNNN o 0) fun w => ins (Field.x w) (Field.nn w)) (x : Reg) (nn : Byte) :
    decode (formXNN o x nn) = .instr (ins x nn) := by
  have h := (row _).mpr (formXNN_and o x nn)
  dsimp only at h
  rwa [x_formXNN, nn_formXNN] at h

theorem decode_formX (b : Byte) {ins : Reg → Instr}
    (row : Machine.rowIs 0xF0FF (formXNN o 0 b) fun w => ins (Field.x w)) (x : Reg) :
    decode (formXNN o x b) = .instr (ins x) := by
  have h := (row _).mpr (formX_and o x b)
  dsimp only at h
  rwa [x_formXNN] at h

theorem decode_formXY (n : BitVec 4) {ins : Reg → Reg → Instr}
    (row : Machine.rowIs 0xF00F (formXYN o 0 0 n) fun w => ins (Field.x w) (Field.y w)) (x y : Reg) :
    decode (formXYN o x y n) = .instr (ins x y) := by
  have h := (row _).mpr (formXY_and o x y n)
  dsimp only at h
  rwa [x_formXYN, y_formXYN] at h

theorem decode_formXYN {ins : Reg → Reg → Fin 16 → Instr}
    (row : Machine.rowIs 0xF000 (formNNN o 0) fun w => ins (Field.x w) (Field.y w) (Field.n w)) (x y : Reg)
    (n : Fin 16) : decode (formXYN o x y (nibble n)) = .instr (ins x y n) := by
  have h := (row _).mpr (formXYN_and o x y (nibble n))
  dsimp only at h
  rwa [x_formXYN, y_formXYN, n_formXYN, nibble_toFin] at h

end

/-! ## Encoding what was decoded: the family and the fixed low bits that the decoder tested are those of the form, and the
operands it took are the word's fields -/

section

variable {w : Word} {i : Instr}

theorem encode_of_decodeFamily8 (hop : (Field.op w).toNat = 8) (h : decodeFamily8 w = .instr i) : encode i = w := by
  unfold decodeFamily8 at h
  split at h <;> rename_i hn <;> cases h <;> exact formXY_of_op 8 _ hop hn

theorem encode_of_decodeFamilyE (hop : (Field.op w).toNat = 14) (h : decodeFamilyE w = .instr i) : encode i = w := by
  unfold decodeFamilyE at h
  split at h <;> rename_i hnn <;> cases h <;> exact formX_of_op 0xE _ hop hnn

theorem encode_of_decodeFamilyF (hop : (Field.op w).toNat = 15) (h : decodeFamilyF w = .instr i) : encode i = w := by
  unfold decodeFamilyF at h
  split at h <;> rename_i hnn <;> cases h <;> exact formX_of_op 0xF _ hop hnn

theorem encode_of_decode (h : decode w = .instr i) : encode i = w := by
  unfold decode at h
  split at h
  case h_1 =>
    split at h
    · next hcls => cases h; exact hcls.symm
    · split at h
      · next hret => cases h; exact hret.symm
      · cases h
  case h_2 hop => cases h; exact formNNN_of_op 0x1 hop
  case h_3 hop => cases h; exact formNNN_of_op 0x2 hop
  case h_4 hop => cases h; exact formXNN_of_op 0x3 hop
  case h_5 hop => cases h; exact formXNN_of_op 0x4 hop
  case h_6 hop =>
    split at h
    · next hn => cases h; exact formXY_of_op 0x5 0x0 hop (congrArg Fin.val hn)
    · cases h
  case h_7 hop => cases h; exact formXNN_of_op 0x6 hop
  case h_8 hop => cases h; exact formXNN_of_op 0x7 hop
  case h_9 hop => exact encode_of_decodeFamily8 hop h
  case h_10 hop =>
    split at h
    · next hn => cases h; exact formXY_of_op 0x9 0x0 hop (congrArg Fin.val hn)
    · cases h
  case h_11 hop => cases h; exact formNNN_of_op 0xA hop
  case h_12 hop => cases h; exact formNNN_of_op 0xB hop
  case h_13 hop => cases h; exact formXNN_of_op 0xC hop
  case h_14 hop => cases h; exact formXYN_of_op 0xD hop
  case h_15 hop => exact encode_of_decodeFamilyE hop h
  case h_16 => exact encode_of_decodeFamilyF (op_eq_F fun k hk e => by interval_cases k <;> contradiction) h

end

end Sys2Proof

namespace Sys2Proof.Machine

/-- Settles O13: each instruction by its row of the opcode table and the lemma of the form that lays its word out. -/
theorem decodeOfEncodeIsIdentity : Obligations.DecodeOfEncodeIsIdentity := by
  intro i
  cases i with
  | cls => decide
  | ret => decide
  | jp nnn => exact decode_formNNN 0x1 row_jp nnn
  | call nnn => exact decode_formNNN 0x2 row_call nnn
  | ldI nnn => exact decode_formNNN 0xA row_ldI nnn
  | jpV0 nnn => exact decode_formNNN 0xB row_jpV0 nnn
  | seVxNn x nn => exact decode_formXNN 0x3 row_seVxNn x nn
  | sneVxNn x nn => exact decode_formXNN 0x4 row_sneVxNn x nn
  | ldVxNn x nn => exact decode_formXNN 0x6 row_ldVxNn x nn
  | addVxNn x nn => exact decode_formXNN 0x7 row_addVxNn x nn
  | rnd x nn => exact decode_formXNN 0xC row_rnd x nn
  | seVxVy x y => exact decode_formXY 0x5 0x0 row_seVxVy x y
  | sneVxVy x y => exact decode_formXY 0x9 0x0 row_sneVxVy x y
  | ldVxVy x y => exact decode_formXY 0x8 0x0 row_ldVxVy x y
  | or x y => exact decode_formXY 0x8 0x1 row_or x y
  | and x y => exact decode_formXY 0x8 0x2 row_and x y
  | xor x y => exact decode_formXY 0x8 0x3 row_xor x y
  | addVxVy x y => exact decode_formXY 0x8 0x4 row_addVxVy x y
  | sub x y => exact decode_formXY 0x8 0x5 row_sub x y
  | shr x y => exact decode_formXY 0x8 0x6 row_shr x y
  | subn x y => exact decode_formXY 0x8 0x7 row_subn x y
  | shl x y => exact decode_formXY 0x8 0xE row_shl x y
  | drw x y n => exact decode_formXYN 0xD row_drw x y n
  | skp x => exact decode_formX 0xE 0x9E row_skp x
  | sknp x => exact decode_formX 0xE 0xA1 row_sknp x
  | ldVxDt x => exact decode_formX 0xF 0x07 row_ldVxDt x
  | ldVxK x => exact decode_formX 0xF 0x0A row_ldVxK x
  | ldDtVx x => exact decode_formX 0xF 0x15 row_ldDtVx x
  | ldStVx x => exact decode_formX 0xF 0x18 row_ldStVx x
  | addIVx x => exact decode_formX 0xF 0x1E row_addIVx x
  | ldFVx x => exact decode_formX 0xF 0x29 row_ldFVx x
  | ldBVx x => exact decode_formX 0xF 0x33 row_ldBVx x
  | ldMemVx x => exact decode_formX 0xF 0x55 row_ldMemVx x
  | ldVxMem x => exact decode_formX 0xF 0x65 row_ldVxMem x

/-- Settles O14: along the decoder's own branches, a word is laid out by its family, its fields and its fixed bits. -/
theorem encodeOfDecodeIsIdentity : Obligations.EncodeOfDecodeIsIdentity :=
  fun _ _ => encode_of_decode

end Sys2Proof.Machine

namespace Sys2Proof

/-! ## The footprint of an instruction: which elements of the state it may write, pc and the outputs apart -/

/-- One flag per element of 10_state.md R30 that some instruction writes; `display` is the framebuffer with redraw, and
`random` the model's random input with its counter (log 2). -/
structure Footprint where
  memory : Bool := false
  registers : Bool := false
  index : Bool := false
  stack : Bool := false
  delayTimer : Bool := false
  soundTimer : Bool := false
  display : Bool := false
  wait : Bool := false
  random : Bool := false

/-- The writers of each element, as 10_state.md sections 2 to 8 list them. -/
def Instr.footprint : Instr → Footprint
  | .cls => { display := true }
  | .drw _ _ _ => { display := true, registers := true }
  | .ret | .call _ => { stack := true }
  | .ldVxNn _ _ | .addVxNn _ _ | .ldVxVy _ _ | .or _ _ | .and _ _ | .xor _ _ | .addVxVy _ _ | .sub _ _ | .shr _ _
  | .subn _ _ | .shl _ _ | .ldVxDt _ | .ldVxMem _ => { registers := true }
  | .rnd _ _ => { registers := true, random := true }
  | .ldI _ | .addIVx _ | .ldFVx _ => { index := true }
  | .ldDtVx _ => { delayTimer := true }
  | .ldStVx _ => { soundTimer := true }
  | .ldVxK _ => { wait := true }
  | .ldBVx _ | .ldMemVx _ => { memory := true }
  | .jp _ | .jpV0 _ | .seVxNn _ _ | .sneVxNn _ _ | .seVxVy _ _ | .sneVxVy _ _ | .skp _ | .sknp _ => {}

end Sys2Proof

namespace Sys2Proof.Machine

/-- From `s` to `t` nothing outside the footprint changes but pc and the outputs; the keypad and the parameters are in no
footprint. -/
def State.KeptOutside (w : Footprint) (s t : State) : Prop :=
  t = { s with
    mem := bif w.memory then t.mem else s.mem
    V := bif w.registers then t.V else s.V
    I := bif w.index then t.I else s.I
    stack := bif w.stack then t.stack else s.stack
    DT := bif w.delayTimer then t.DT else s.DT
    ST := bif w.soundTimer then t.ST else s.ST
    fb := bif w.display then t.fb else s.fb
    redraw := bif w.display then t.redraw else s.redraw
    wait := bif w.wait then t.wait else s.wait
    rndIn := bif w.random then t.rndIn else s.rndIn
    draws := bif w.random then t.draws else s.draws
    pc := t.pc
    out := t.out }

/-- What is outside the footprint kept its value. -/
theorem eq_of_cond_eq {α : Type} {b : Bool} {new old : α} (h : new = bif b then new else old) (hb : b = false) :
    new = old := by
  subst hb; exact h

section

variable {w : Footprint} {s t : State} (h : s.KeptOutside w t)

include h

theorem State.KeptOutside.key : t.key = s.key := (congrArg State.key h :)

theorem State.KeptOutside.params : t.params = s.params := (congrArg State.params h :)

theorem State.KeptOutside.mem : w.memory = false → t.mem = s.mem := eq_of_cond_eq (congrArg State.mem h :)

theorem State.KeptOutside.V : w.registers = false → t.V = s.V := eq_of_cond_eq (congrArg State.V h :)

theorem State.KeptOutside.I : w.index = false → t.I = s.I := eq_of_cond_eq (congrArg State.I h :)

theorem State.KeptOutside.stack : w.stack = false → t.stack = s.stack := eq_of_cond_eq (congrArg State.stack h :)

theorem State.KeptOutside.DT : w.delayTimer = false → t.DT = s.DT := eq_of_cond_eq (congrArg State.DT h :)

theorem State.KeptOutside.ST : w.soundTimer = false → t.ST = s.ST := eq_of_cond_eq (congrArg State.ST h :)

theorem State.KeptOutside.fb : w.display = false → t.fb = s.fb := eq_of_cond_eq (congrArg State.fb h :)

theorem State.KeptOutside.redraw : w.display = false → t.redraw = s.redraw := eq_of_cond_eq (congrArg State.redraw h :)

theorem State.KeptOutside.wait : w.wait = false → t.wait = s.wait := eq_of_cond_eq (congrArg State.wait h :)

theorem State.KeptOutside.rndIn : w.random = false → t.rndIn = s.rndIn := eq_of_cond_eq (congrArg State.rndIn h :)

theorem State.KeptOutside.draws : w.random = false → t.draws = s.draws := eq_of_cond_eq (congrArg State.draws h :)

end

section

variable (s : State)

theorem State.popToPc_keptOutside : s.KeptOutside { stack := true } s.popToPc := by
  obtain ⟨-, h⟩ | ⟨rest, target, -, h⟩ := s.popToPc_cases <;> rw [h] <;> rfl

theorem State.pushAndJump_keptOutside (w : Word) : s.KeptOutside { stack := true } (s.pushAndJump w) := by
  obtain ⟨-, h⟩ | ⟨-, h⟩ := s.pushAndJump_cases w <;> rw [h] <;> rfl

theorem State.skipIf_keptOutside (c : Bool) : s.KeptOutside {} (s.skipIf c) := by
  cases c <;> rfl

end

/-- An instruction writes nothing outside its footprint: by the lemma of its shared operation where it has one, and for
the others by the updates it is made of. -/
theorem exec_keptOutside {i : Instr} {s t : State} (h : exec i s = .next t) : s.KeptOutside i.footprint t := by
  cases i with
  | ret => cases h; exact s.popToPc_keptOutside
  | call nnn => cases h; exact s.pushAndJump_keptOutside (zextAddr nnn)
  | seVxNn x nn => cases h; exact s.skipIf_keptOutside _
  | sneVxNn x nn => cases h; exact s.skipIf_keptOutside _
  | seVxVy x y => cases h; exact s.skipIf_keptOutside _
  | sneVxVy x y => cases h; exact s.skipIf_keptOutside _
  | skp x => cases h; exact s.skipIf_keptOutside _
  | sknp x => cases h; exact s.skipIf_keptOutside _
  | rnd x nn =>
    cases h
    obtain ⟨r, rest, -, hdraw⟩ | ⟨-, hdraw⟩ := s.drawRnd_cases <;> rw [hdraw] <;> rfl
  | drw x y n =>
    rw [exec_drw] at h
    cases h; rfl
  | ldBVx x =>
    obtain ⟨m, hstore, -⟩ := s.storeDigits_frame (s.getV x)
    cases h
    rw [hstore]; rfl
  | ldMemVx x =>
    obtain ⟨m, hstore, -⟩ := s.storeRegs_frame x
    cases h
    rw [hstore]; rfl
  | ldVxMem x =>
    obtain ⟨v, hload, -⟩ := s.loadRegs_frame x
    cases h
    rw [hload]; rfl
  | _ => cases h; rfl

/-! ## The invariant -/

/-- The invariant speaks of memory, the parameters, the stack and I only. -/
theorem State.Inv.congr {s t : State} (h : s.Inv) (hmem : t.mem = s.mem) (hparams : t.params = s.params)
    (hstack : t.stack = s.stack) (hI : t.I = s.I) : t.Inv where
  memoryCanonical := by rw [hmem, hparams]; exact h.memoryCanonical
  stackBounded := by rw [State.sp, hstack]; exact h.stackBounded
  indexBounded := by rw [hI]; exact h.indexBounded

/-- A new memory keeps the invariant if it is canonical. -/
theorem State.Inv.setMem {s : State} (h : s.Inv) {m : Memory} (hm : Memory.wf s.params m) : (s.setMem m).Inv :=
  ⟨hm, h.stackBounded, h.indexBounded⟩

theorem State.Inv.setStack {s : State} (h : s.Inv) {st : List Word} (hst : st.length ≤ 16) : (s.setStack st).Inv :=
  ⟨h.memoryCanonical, hst, h.indexBounded⟩

theorem State.Inv.setI {s : State} (h : s.Inv) {i : Word} (hi : i.toNat ≤ 0xFFF) : (s.setI i).Inv :=
  ⟨h.memoryCanonical, h.stackBounded, hi⟩

theorem State.Inv.popToPc {s : State} (h : s.Inv) : s.popToPc.Inv := by
  obtain ⟨-, hpop⟩ | ⟨rest, target, hstack, hpop⟩ := s.popToPc_cases
  · rw [hpop]
    exact h.congr rfl rfl rfl rfl
  · have hlen : s.stack.length ≤ 16 := h.stackBounded
    rw [hstack, List.length_append, List.length_singleton] at hlen
    rw [hpop]
    exact (h.setStack (st := rest) (by omega)).congr rfl rfl rfl rfl

theorem State.Inv.pushAndJump {s : State} (h : s.Inv) (w : Word) : (s.pushAndJump w).Inv := by
  obtain ⟨hroom, hpush⟩ | ⟨-, hpush⟩ := s.pushAndJump_cases w
  · rw [hpush]
    have hlen : (s.stack ++ [s.pc + 2]).length ≤ 16 := by rwa [List.length_append, List.length_singleton]
    exact (h.setStack hlen).congr rfl rfl rfl rfl
  · rw [hpush]
    exact h.congr rfl rfl rfl rfl

theorem State.Inv.storeDigits {s : State} (h : s.Inv) (v : Byte) : (s.storeDigits v).Inv := by
  obtain ⟨m, hstore, -, -, -, -, hwf⟩ := s.storeDigits_eq v
  rw [hstore]
  exact (h.setMem (hwf h.memoryCanonical)).congr rfl rfl rfl rfl

theorem State.Inv.storeRegs {s : State} (h : s.Inv) {n : Nat} (hn : n ≤ 16) : (s.storeRegs n).Inv := by
  obtain ⟨m, hstore, -, -, hwf⟩ := s.storeRegs_eq n hn
  rw [hstore]
  exact (h.setMem (hwf h.memoryCanonical)).congr rfl rfl rfl rfl

/-- `advance` writes pc only. -/
theorem State.Inv.advance {s : State} (h : s.Inv) : s.advance.Inv := h.congr rfl rfl rfl rfl

theorem zextAddr_le (nnn : Addr) : (zextAddr nnn).toNat ≤ 0xFFF := by
  have := nnn.isLt
  rw [zextAddr_toNat]; omega

theorem indexSum_le (i : Word) (vx : Byte) : (indexSum i vx).toNat ≤ 0xFFF := by
  rw [indexSum_toNat]; omega

/-- The highest glyph address, FONT_BASE 0x1B0 and vx 255, is 0x6AB (R37, R233). -/
theorem glyphAddr_le (p : Config.Params) (vx : Byte) : (glyphAddr p vx).toNat ≤ 0xFFF := by
  have hbase := p.fontBase.isLt
  have hvx := vx.isLt
  rw [glyphAddr_toNat]; omega

/-- The instructions that write memory, the stack or I keep the invariant by their operation's lemma, the others because
these elements are outside their footprint. -/
theorem exec_keeps_inv {i : Instr} {s t : State} (hinv : s.Inv) (h : exec i s = .next t) : t.Inv := by
  have hkept := exec_keptOutside h
  cases i with
  | ret => cases h; exact hinv.popToPc
  | call nnn => cases h; exact hinv.pushAndJump (zextAddr nnn)
  | ldBVx x => cases h; exact (hinv.storeDigits (s.getV x)).advance
  | ldMemVx x => cases h; exact (hinv.storeRegs x.isLt).advance
  | ldI nnn => cases h; exact (hinv.setI (zextAddr_le nnn)).advance
  | addIVx x => cases h; exact (hinv.setI (indexSum_le s.I (s.getV x))).advance
  | ldFVx x => cases h; exact (hinv.setI (glyphAddr_le s.params (s.getV x))).advance
  | _ =>
    exact hinv.congr (hkept.mem rfl) hkept.params (hkept.stack rfl) (hkept.I rfl)

theorem step_keeps_inv {s t : State} (hinv : s.Inv) (h : step s = .next t) : t.Inv := by
  obtain ⟨i, -, -, hexec⟩ | ⟨-, -, rfl⟩ | ⟨r, -, -, rfl⟩ | ⟨r, k, -, -, rfl⟩ := step_cases s t h
  · have hfetch : s.afterFetch.Inv := hinv.congr rfl rfl rfl rfl
    exact exec_keeps_inv hfetch hexec
  · exact hinv.congr rfl rfl rfl rfl
  · exact hinv.congr rfl rfl rfl rfl
  · exact hinv.congr rfl rfl rfl rfl

theorem step_params {s t : State} (h : step s = .next t) : t.params = s.params := by
  obtain ⟨i, -, -, hexec⟩ | ⟨-, -, rfl⟩ | ⟨r, -, -, rfl⟩ | ⟨r, k, -, -, rfl⟩ := step_cases s t h
  · exact (exec_keptOutside hexec).params
  · rfl
  · rfl
  · rfl

theorem State.Inv.restart {s : State} {m : Memory} (hm : Memory.wf s.params m) (o : Outputs) : (s.restart m o).Inv :=
  ⟨hm, Nat.zero_le 16, Nat.zero_le 0xFFF⟩

theorem State.Inv.load {s : State} (h : s.Inv) (rom : List Byte) : (s.load rom).Inv := by
  rcases Nat.lt_or_ge 3584 rom.length with hlarge | hfits
  · rw [s.load_tooLarge rom hlarge]
    exact h.congr rfl rfl rfl rfl
  · rw [s.load_fits rom hfits]
    have hend : 0x200 + rom.length ≤ Config.memSize := by rw [Config.memSize]; omega
    exact State.Inv.restart (Memory.writeList_wf _ _ _ _ hend (Memory.nil_wf _)) _

theorem State.Inv.resetCommand {s : State} (h : s.Inv) : s.resetCommand.Inv := by
  obtain ⟨m, hreset, -, hwf⟩ := s.resetCommand_eq
  rw [hreset]
  exact State.Inv.restart (hwf h.memoryCanonical) _

theorem State.load_params (s : State) (rom : List Byte) : (s.load rom).params = s.params := by
  rw [State.load]
  split <;> rfl

/-- One command keeps the invariant and the parameters, in every mode. -/
theorem command_keeps_inv {c : Command} {s t : State} (hinv : s.Inv) (h : command c s = .next t) :
    t.Inv ∧ t.params = s.params := by
  cases c with
  | step r =>
    obtain ⟨u, hstep, rfl⟩ := restoreRnd_next h
    have hin : State.Inv { s with rndIn := r :: s.rndIn } := hinv.congr rfl rfl rfl rfl
    exact ⟨(step_keeps_inv hin hstep).congr rfl rfl rfl rfl, (step_params hstep :)⟩
  | load rom => cases h; exact ⟨hinv.load rom, s.load_params rom⟩
  | reset => cases h; exact ⟨hinv.resetCommand, rfl⟩
  | tick => cases h; exact ⟨hinv.congr rfl rfl rfl rfl, rfl⟩
  | setKeys keys =>
    obtain ⟨ks, hkeys, -⟩ := s.setKeysCommand_eq keys
    cases h
    rw [hkeys]
    exact ⟨hinv.congr rfl rfl rfl rfl, rfl⟩
  | setKey k p => cases h; exact ⟨hinv.congr rfl rfl rfl rfl, rfl⟩
  | ackRedraw => cases h; exact ⟨hinv.congr rfl rfl rfl rfl, rfl⟩

/-- The first command of a run that ends answered a state, from which the rest of the run goes on. -/
theorem runCommands_cons {c : Command} {cs : List Command} {s t : State} (h : runCommands (c :: cs) s = .next t) :
    ∃ u, command c s = .next u ∧ runCommands cs u = .next t := by
  unfold runCommands at h
  split at h
  · next u hcommand => exact ⟨u, hcommand, h⟩
  · cases h
  · cases h

/-- Settles O11: the fetch, an UNKNOWN word and the poll write neither memory nor the stack nor I, so it rests on the
instruction. -/
theorem stepKeepsInvariant : Obligations.StepKeepsInvariant := fun _ _ => step_keeps_inv

/-- Settles O12, by induction on the list of commands. -/
theorem commandSequencesKeepInvariant : Obligations.CommandSequencesKeepInvariant := by
  intro cs
  induction cs with
  | nil => intro s t hinv h; cases h; exact ⟨hinv, rfl⟩
  | cons c cs ih =>
    intro s t hinv h
    obtain ⟨u, hcommand, hrest⟩ := runCommands_cons h
    obtain ⟨huinv, huparams⟩ := command_keeps_inv hinv hcommand
    obtain ⟨htinv, htparams⟩ := ih u t huinv hrest
    exact ⟨htinv, htparams.trans huparams⟩

/-- Settles O10: power-on is a restart with nothing listed in memory. -/
theorem powerOnSatisfiesInvariant : Obligations.PowerOnSatisfiesInvariant := by
  have hpowerOn : ∀ p, (State.powerOn p).Inv := fun p => by
    rw [State.powerOn_eq_restart]
    exact State.Inv.restart (Memory.nil_wf p) _
  exact ⟨hpowerOn, hpowerOn _⟩

/-! ## Completion: CORE has no trap (R300), and every arm of the dispatch answers a state -/

theorem exec_completes (i : Instr) (s : State) : ∃ t, exec i s = .next t := by
  cases i <;> exact ⟨_, rfl⟩

theorem step_completes (s : State) : ∃ t, step s = .next t := by
  cases hw : s.wait with
  | some r => rw [step, hw]; exact ⟨_, rfl⟩
  | none =>
    rw [step_running s hw]
    cases decode s.fetchWord with
    | instr i => exact exec_completes i _
    | unknown => exact ⟨_, rfl⟩

theorem command_completes (c : Command) (s : State) : ∃ t, command c s = .next t := by
  cases c with
  | step r =>
    obtain ⟨u, hstep⟩ := step_completes { s with rndIn := r :: s.rndIn }
    exact ⟨_, congrArg (restoreRnd s.rndIn) hstep⟩
  | _ => exact ⟨_, rfl⟩

/-- Settles O9, by induction on the list of commands. -/
theorem everyCommandSequenceCompletes : Obligations.EveryCommandSequenceCompletes := by
  intro cs
  induction cs with
  | nil => exact fun s => ⟨s, rfl⟩
  | cons c cs ih =>
    intro s
    obtain ⟨u, hcommand⟩ := command_completes c s
    rw [runCommands, hcommand]
    exact ih u

end Sys2Proof.Machine

namespace Sys2Proof

/-! ## Which instructions have an element in their footprint -/

section

variable {i : Instr}

theorem Instr.of_footprint_index (h : i.footprint.index = true) :
    (∃ nnn, i = .ldI nnn) ∨ (∃ x, i = .addIVx x) ∨ ∃ x, i = .ldFVx x := by
  cases i with
  | ldI nnn => exact .inl ⟨nnn, rfl⟩
  | addIVx x => exact .inr (.inl ⟨x, rfl⟩)
  | ldFVx x => exact .inr (.inr ⟨x, rfl⟩)
  | _ => cases h

theorem Instr.of_footprint_stack (h : i.footprint.stack = true) : i = .ret ∨ ∃ nnn, i = .call nnn := by
  cases i with
  | ret => exact .inl rfl
  | call nnn => exact .inr ⟨nnn, rfl⟩
  | _ => cases h

theorem Instr.of_footprint_delayTimer (h : i.footprint.delayTimer = true) : ∃ x, i = .ldDtVx x := by
  cases i with
  | ldDtVx x => exact ⟨x, rfl⟩
  | _ => cases h

theorem Instr.of_footprint_soundTimer (h : i.footprint.soundTimer = true) : ∃ x, i = .ldStVx x := by
  cases i with
  | ldStVx x => exact ⟨x, rfl⟩
  | _ => cases h

theorem Instr.of_footprint_display (h : i.footprint.display = true) : i = .cls ∨ ∃ x y n, i = .drw x y n := by
  cases i with
  | cls => exact .inl rfl
  | drw x y n => exact .inr ⟨x, y, n, rfl⟩
  | _ => cases h

theorem Instr.of_footprint_wait (h : i.footprint.wait = true) : ∃ x, i = .ldVxK x := by
  cases i with
  | ldVxK x => exact ⟨x, rfl⟩
  | _ => cases h

theorem Instr.of_footprint_random (h : i.footprint.random = true) : ∃ x nn, i = .rnd x nn := by
  cases i with
  | rnd x nn => exact ⟨x, nn, rfl⟩
  | _ => cases h

end

end Sys2Proof

namespace Sys2Proof.Machine

/-! ## The anomalies of each instruction (R300–R305) -/

/-- The anomalies that an instruction reports when it executes in `s`. -/
def State.reports (s : State) : Instr → BitVec 4
  | .ret => if s.stack = [] then 0b0100#4 else 0
  | .call _ => if s.stack.length < 16 then 0 else 0b1000#4
  | .drw _ _ n => if 0 < n.val ∧ 0xFFF < s.I.toNat + n.val - 1 then 0b0001#4 else 0
  | .ldBVx _ => if 0xFFF < s.I.toNat + 2 then 0b0001#4 else 0
  | .ldMemVx x | .ldVxMem x => if 0xFFF < s.I.toNat + x.val then 0b0001#4 else 0
  | _ => 0

theorem withOutOfBounds_anom (o : Outputs) (p : Prop) [Decidable p] :
    (withOutOfBounds o p).anom = o.anom ||| if p then 0b0001#4 else 0 := by
  by_cases hp : p <;> simp [withOutOfBounds, hp]

section

variable (s : State)

theorem State.popToPc_anom :
    s.popToPc.out.anom = s.out.anom ||| if s.stack = [] then 0b0100#4 else 0 := by
  obtain ⟨hnil, h⟩ | ⟨rest, target, hstack, h⟩ := s.popToPc_cases
  · rw [h, if_pos hnil]; rfl
  · rw [h, if_neg (by simp [hstack])]; simp

theorem State.pushAndJump_anom (w : Word) :
    (s.pushAndJump w).out.anom = s.out.anom ||| if s.stack.length < 16 then 0 else 0b1000#4 := by
  obtain ⟨hroom, h⟩ | ⟨hfull, h⟩ := s.pushAndJump_cases w
  · rw [h, if_pos hroom]; simp
  · rw [h, if_neg (by omega)]; rfl

theorem State.skipIf_anom (c : Bool) : (s.skipIf c).out.anom = s.out.anom ||| 0 := by
  cases c <;> exact BitVec.or_zero.symm

end

/-- Execution adds to the anomaly set exactly what the instruction reports. -/
theorem exec_anom {i : Instr} {s t : State} (h : exec i s = .next t) :
    t.out.anom = s.out.anom ||| s.reports i := by
  cases i with
  | ret => cases h; exact s.popToPc_anom
  | call nnn => cases h; exact s.pushAndJump_anom (zextAddr nnn)
  | seVxNn x nn => cases h; exact s.skipIf_anom _
  | sneVxNn x nn => cases h; exact s.skipIf_anom _
  | seVxVy x y => cases h; exact s.skipIf_anom _
  | sneVxVy x y => cases h; exact s.skipIf_anom _
  | skp x => cases h; exact s.skipIf_anom _
  | sknp x => cases h; exact s.skipIf_anom _
  | rnd x nn =>
    cases h
    obtain ⟨r, rest, -, hdraw⟩ | ⟨-, hdraw⟩ := s.drawRnd_cases <;> rw [hdraw] <;> exact BitVec.or_zero.symm
  | drw x y n =>
    rw [exec_drw] at h
    cases h
    rw [← Bool.decide_and]
    exact withOutOfBounds_anom _ _
  | ldBVx x =>
    obtain ⟨m, hstore, -⟩ := s.storeDigits_frame (s.getV x)
    cases h
    rw [hstore]
    exact withOutOfBounds_anom _ _
  | ldMemVx x =>
    obtain ⟨m, hstore, -⟩ := s.storeRegs_frame x
    cases h
    rw [hstore]
    exact withOutOfBounds_anom _ _
  | ldVxMem x =>
    obtain ⟨v, hload, -⟩ := s.loadRegs_frame x
    cases h
    rw [hload]
    exact withOutOfBounds_anom _ _
  | _ => cases h; exact BitVec.or_zero.symm

theorem outOfBounds_bit_iff (p : Prop) [Decidable p] : (if p then 0b0001#4 else 0).getLsbD 0 = true ↔ p := by
  by_cases hp : p <;> simp [hp]

/-- The instructions that report OutOfBounds, and where (60_exceptions.md section 2). -/
theorem State.reports_outOfBounds_iff (s : State) (i : Instr) :
    (s.reports i).getLsbD 0 = true ↔
      (∃ x y n, i = .drw x y n ∧ 0 < n.val ∧ 0xFFF < s.I.toNat + n.val - 1) ∨
      (∃ x, i = .ldBVx x ∧ 0xFFF < s.I.toNat + 2) ∨
      (∃ x, i = .ldMemVx x ∧ 0xFFF < s.I.toNat + x.val) ∨
      (∃ x, i = .ldVxMem x ∧ 0xFFF < s.I.toNat + x.val) := by
  cases i with
  | ret => by_cases hnil : s.stack = [] <;> simp [State.reports, hnil]
  | call nnn => by_cases hroom : s.stack.length < 16 <;> simp [State.reports, hroom]
  | drw x y n => rw [State.reports, outOfBounds_bit_iff]; simp
  | ldBVx x => rw [State.reports, outOfBounds_bit_iff]; simp
  | ldMemVx x => rw [State.reports, outOfBounds_bit_iff]; simp
  | ldVxMem x => rw [State.reports, outOfBounds_bit_iff]; simp
  | _ => simp [State.reports]

/-- The fetch reports OutOfBounds if one of its two addresses is above 0xFFF (R84). -/
theorem State.afterFetch_outOfBounds_iff (s : State) :
    s.afterFetch.out.anom.getLsbD 0 = true ↔ 0xFFF < s.pc.toNat + 1 := by
  rw [outOfBounds_bit_iff]
  omega

/-- Settles O24: a report comes from the fetch or from the instruction; an UNKNOWN word adds another member only. -/
theorem outOfBoundsReportedExactly : Obligations.OutOfBoundsReportedExactly := by
  intro s t hw h
  obtain ⟨i, -, hd, hexec⟩ | ⟨-, hd, rfl⟩ | ⟨r, hwait, -⟩ | ⟨r, k, hwait, -⟩ := step_cases s t h
  · rw [exec_anom hexec, BitVec.getLsbD_or, Bool.or_eq_true, s.afterFetch_outOfBounds_iff,
      State.reports_outOfBounds_iff]
    simp only [hd, Decoded.instr.injEq]
  · have hunknown : (s.afterFetch.recoverAsNop .unknownOpcode).out.anom.getLsbD 0 = s.afterFetch.out.anom.getLsbD 0 := by
      rw [State.recoverAsNop_eq, BitVec.getLsbD_or]
      exact Bool.or_false _
    rw [hunknown, s.afterFetch_outOfBounds_iff]
    simp only [hd, reduceCtorEq, false_and, exists_false, or_false]
  · rw [hw] at hwait; cases hwait
  · rw [hw] at hwait; cases hwait

/-! ## Frames over all instructions -/

/-- Settles O29: what changed is in the footprint, the outputs but the anomaly set are kept, and a report only adds. -/
theorem otherStateWrittenOnlyByItsWriters : Obligations.OtherStateWrittenOnlyByItsWriters := by
  intro i s t h
  have hkept := exec_keptOutside h
  refine ⟨hkept.key, hkept.params, fun hI => ?_, fun hstack => ?_, fun hDT => ?_, fun hST => ?_, fun hdisplay => ?_,
    fun hwait => ?_, fun hrandom => ?_, exec_outputs h, by rw [exec_anom h, anom_and_or]⟩
  · exact Instr.of_footprint_index (Bool.eq_true_of_not_eq_false (mt hkept.I hI))
  · exact Instr.of_footprint_stack (Bool.eq_true_of_not_eq_false (mt hkept.stack hstack))
  · exact Instr.of_footprint_delayTimer (Bool.eq_true_of_not_eq_false (mt hkept.DT hDT))
  · exact Instr.of_footprint_soundTimer (Bool.eq_true_of_not_eq_false (mt hkept.ST hST))
  · exact Instr.of_footprint_display (Bool.eq_true_of_not_eq_false fun hw =>
      hdisplay.elim (absurd (hkept.fb hw)) (absurd (hkept.redraw hw)))
  · exact Instr.of_footprint_wait (Bool.eq_true_of_not_eq_false (mt hkept.wait hwait))
  · exact Instr.of_footprint_random (Bool.eq_true_of_not_eq_false fun hw =>
      hrandom.elim (absurd (hkept.rndIn hw)) (absurd (hkept.draws hw)))

theorem State.reg_eq_of_setV_ne {s : State} {x r : Reg} {b : Byte} (h : (s.setV x b).V.get r ≠ s.V.get r) : r = x := by
  by_contra hr
  exact h (by rw [State.V_get_setV, if_neg hr])

theorem State.reg_eq_of_setVF_ne {s : State} {x r : Reg} {b : Byte} {c : Bool}
    (h : ((s.setV x b).setVF c).V.get r ≠ s.V.get r) : r = x ∨ r = 0xF := by
  by_contra hr
  obtain ⟨hx, hF⟩ := not_or.mp hr
  exact h (by rw [State.V_get_setV_setVF, if_neg hF, if_neg hx])

@[simp] theorem State.drawRnd_V (s : State) : s.drawRnd.2.V = s.V := by
  obtain ⟨r, rest, -, h⟩ | ⟨-, h⟩ := s.drawRnd_cases <;> rw [h]

/-- Settles O27: a data result is a write of V[x], a flag one of VF, FX65 one of V0..V[x]; for the rest no register is in
the footprint. -/
theorem registersWrittenOnlyByDestinations : Obligations.RegistersWrittenOnlyByDestinations := by
  intro i s t r h hne
  have hkept := exec_keptOutside h
  cases i with
  | ldVxNn x nn => cases h; exact State.reg_eq_of_setV_ne hne
  | addVxNn x nn => cases h; exact State.reg_eq_of_setV_ne hne
  | ldVxVy x y => cases h; exact State.reg_eq_of_setV_ne hne
  | or x y => cases h; exact State.reg_eq_of_setV_ne hne
  | and x y => cases h; exact State.reg_eq_of_setV_ne hne
  | xor x y => cases h; exact State.reg_eq_of_setV_ne hne
  | ldVxDt x => cases h; exact State.reg_eq_of_setV_ne hne
  | rnd x nn =>
    cases h
    rw [← s.drawRnd_V] at hne
    exact State.reg_eq_of_setV_ne hne
  | addVxVy x y => cases h; exact State.reg_eq_of_setVF_ne hne
  | sub x y => cases h; exact State.reg_eq_of_setVF_ne hne
  | shr x y => cases h; exact State.reg_eq_of_setVF_ne hne
  | subn x y => cases h; exact State.reg_eq_of_setVF_ne hne
  | shl x y => cases h; exact State.reg_eq_of_setVF_ne hne
  | drw x y n =>
    rw [exec_drw] at h
    cases h
    exact State.reg_eq_of_setV_ne hne
  | ldVxMem x =>
    obtain ⟨v, hload, hget⟩ := s.loadRegs_frame x
    cases h
    by_contra hr
    exact hne (by rw [hload, hget, if_neg hr])
  | _ => exact hne (by rw [hkept.V rfl])

/-- Settles O28: the bytes FX33 and FX55 leave are their operation's; for the rest memory is not in the footprint. -/
theorem memoryWrittenOnlyByStores : Obligations.MemoryWrittenOnlyByStores := by
  intro i s t a h hne
  have hkept := exec_keptOutside h
  cases i with
  | ldBVx x =>
    obtain ⟨m, hstore, -, -, -, hkeep⟩ := s.storeDigits_frame (s.getV x)
    cases h
    by_contra hout
    push Not at hout
    exact hne (by rw [hstore]; exact hkeep a hout)
  | ldMemVx x =>
    obtain ⟨m, hstore, -, hkeep⟩ := s.storeRegs_frame x
    cases h
    by_contra hout
    push Not at hout
    exact hne (by rw [hstore]; exact hkeep a hout)
  | _ => exact hne (by rw [State.byte, State.byte, hkept.mem rfl, hkept.params])

/-! ## STEPs: the mode, the timers, the keypad and redraw -/

/-- From mode Running, FX0A and no other instruction starts a wait (R275). -/
theorem exec_wait_iff {i : Instr} {s t : State} (hw : s.wait = none) (h : exec i s = .next t) (r : Reg) :
    t.wait = some r ↔ i = .ldVxK r := by
  have hkept := exec_keptOutside h
  cases i with
  | ldVxK x => cases h; simp
  | _ => rw [hkept.wait rfl, hw]; simp

/-- 00E0 and DXYN set redraw; the others keep it. -/
theorem exec_redraw {i : Instr} {s t : State} (h : exec i s = .next t) (hredraw : s.redraw = true) :
    t.redraw = true := by
  have hkept := exec_keptOutside h
  cases i with
  | cls => cases h; rfl
  | drw x y n => cases h; rfl
  | _ => rw [hkept.redraw rfl, hredraw]

/-- Settles O22: from Running by the instruction, from AwaitingKey by the two cases of the poll. -/
theorem modeChangesOnlyByKeyWait : Obligations.ModeChangesOnlyByKeyWait := by
  refine ⟨fun s t hw h r => ?_, fun s t r hw h => ?_⟩
  · obtain ⟨i, -, hd, hexec⟩ | ⟨-, hd, rfl⟩ | ⟨q, hwait, -⟩ | ⟨q, k, hwait, -⟩ := step_cases s t h
    · have hfetch : s.afterFetch.wait = none := hw
      rw [exec_wait_iff hfetch hexec, hd, Decoded.instr.injEq]
    · have hkeep : (s.afterFetch.recoverAsNop .unknownOpcode).wait = none := hw
      simp only [hkeep, hd, reduceCtorEq]
    · rw [hw] at hwait; cases hwait
    · rw [hw] at hwait; cases hwait
  · obtain ⟨i, hwait, -⟩ | ⟨hwait, -⟩ | ⟨q, -, hnone, rfl⟩ | ⟨q, k, -, hfirst, rfl⟩ := step_cases s t h
    · rw [hw] at hwait; cases hwait
    · rw [hw] at hwait; cases hwait
    · exact .inr ⟨hw, hnone⟩
    · exact .inl ⟨rfl, k, (s.firstPressed_least k hfirst).left⟩

/-- Settles O23: the fetch, an UNKNOWN word and the poll write none of these elements, so a change comes from the
instruction, by its frame. -/
theorem stepLeavesTimersKeypadRedraw : Obligations.StepLeavesTimersKeypadRedraw := by
  intro s t h
  obtain ⟨i, hw, hd, hexec⟩ | ⟨-, -, rfl⟩ | ⟨r, -, -, rfl⟩ | ⟨r, k, -, -, rfl⟩ := step_cases s t h
  · obtain ⟨hkey, -, -, -, hDT, hST, hdisplay, -⟩ := otherStateWrittenOnlyByItsWriters i _ t hexec
    simp only [hd, Decoded.instr.injEq]
    exact ⟨hkey, (exec_redraw hexec :), fun hne => ⟨hw, hDT hne⟩, fun hne => ⟨hw, hST hne⟩,
      fun hne => ⟨hw, hdisplay (.inr hne)⟩⟩
  · exact ⟨rfl, id, absurd rfl, absurd rfl, absurd rfl⟩
  · exact ⟨rfl, id, absurd rfl, absurd rfl, absurd rfl⟩
  · exact ⟨rfl, id, absurd rfl, absurd rfl, absurd rfl⟩

/-- Settles O21: the poll ends the wait by storing the index of a pressed key, and the low nibble of that byte is the
index. -/
theorem capturedKeyTestsPressed : Obligations.CapturedKeyTestsPressed := by
  intro s r t hw h hrunning
  obtain ⟨i, hwait, -⟩ | ⟨hwait, -⟩ | ⟨q, -, -, rfl⟩ | ⟨q, k, hq, hfirst, rfl⟩ := step_cases s t h
  · rw [hw] at hwait; cases hwait
  · rw [hw] at hwait; cases hwait
  · rw [State.beginStep, State.setOut_wait, hw] at hrunning; cases hrunning
  · obtain rfl : r = q := Option.some.inj (hw.symm.trans hq)
    set t := ((s.beginStep.setV r (BitVec.ofNat 8 k.val)).setWait none).advance
    have hV : (t.V.get r).toNat = k.val := by
      have hk := k.isLt
      rw [show t.V.get r = BitVec.ofNat 8 k.val from s.beginStep.getV_setV_same r _, BitVec.toNat_ofNat]
      omega
    have hmod : (t.V.get r).toNat % 16 = k.val := by rw [hV, Nat.mod_eq_of_lt k.isLt]
    have hpressed : t.key.get k = true := (s.firstPressed_least k hfirst).left
    obtain ⟨-, -, hskp, hsknp⟩ := keyTestSkips
    refine ⟨hV ▸ k.isLt, ?_, ?_⟩
    · rw [hskp t r k hmod, if_pos hpressed]
    · rw [hsknp t r k hmod, hpressed, if_neg Bool.true_eq_false.mp]

end Sys2Proof.Machine

namespace Sys2Proof.Machine

/-! ## Placing and fetching a word -/

/-- Settles O16. -/
theorem sampleWordsDecode : Obligations.SampleWordsDecode := by
  unfold Obligations.SampleWordsDecode
  decide

/-- The two bytes of a placed word lie at different masked addresses, so both are read back (R83, R84). -/
theorem State.placeWord_fetchWord (s : State) (w : Word) : (s.placeWord w).fetchWord = w := by
  have hapart : mask12 s.pc.toNat ≠ mask12 (s.pc.toNat + 1) :=
    mask12_add_ne (j := 0) (by omega) (by omega) (by omega)
  have hhigh : (s.placeWord w).byteAt s.pc.toNat = highByte w := by
    simp [State.placeWord, State.byteAt, Memory.read_write, hapart]
  have hlow : (s.placeWord w).byteAt (s.pc.toNat + 1) = lowByte w := by
    simp [State.placeWord, State.byteAt, Memory.read_write]
  rw [State.fetchWord_eq, show (s.placeWord w).pc = s.pc from rfl, hhigh, hlow, wordOfBytes_bytes]

/-- A 16-bit row of the opcode table is numbered by the word itself. -/
theorem tableWord_sixteen {w : Nat} (h : w < 65536) : tableWord 16 w = BitVec.ofNat 16 w := by
  rw [tableWord, Nat.mod_eq_of_lt (show w < 2 ^ 16 from h)]

theorem decodeTableWord_eq_some_iff (nbits w : Nat) (i : Instr) :
    decodeTableWord nbits w = some i ↔ decode (tableWord nbits w) = .instr i := by
  rw [decodeTableWord, decodeBytes, wordOfBytes_bytes]
  cases decode (tableWord nbits w) <;> simp

/-- Settles O17. -/
theorem placedWordIsFetched : Obligations.PlacedWordIsFetched := by
  refine ⟨fun s w hw => ⟨?_, rfl, rfl⟩, fun w i hw => ?_⟩
  · rw [State.withFetchWord, State.placeWord_fetchWord, tableWord_sixteen hw]
  · rw [decodeTableWord_eq_some_iff, tableWord_sixteen hw]

/-! ## Single instructions and pairs of them -/

/-- Settles O32: the call appends pc + 2 to the stack, which the return takes off again into pc. -/
theorem callThenReturnRestores : Obligations.CallThenReturnRestores := by
  intro s nnn hroom
  refine ⟨{ s with stack := s.stack ++ [s.pc + 2], pc := zextAddr nnn }, ?_, ?_⟩
  · exact congrArg Host.Outcome.next (s.pushAndJump_of_lt (zextAddr nnn) hroom)
  · exact congrArg Host.Outcome.next (State.popToPc_concat _ s.stack (s.pc + 2) rfl)

/-- Settles O36: one data result, the sum as a number. -/
theorem addImmediateWritesNoFlag : Obligations.AddImmediateWritesNoFlag := by
  refine ⟨row_addVxNn, fun s x nn => ?_⟩
  rw [← byte_add_eq]
  exact exec_load rfl

/-- CXNN masks what the draw answers, in the state that the draw leaves (R214). -/
theorem exec_rnd_of_drawRnd {s u : State} {r : Byte} (x : Reg) (nn : Byte) (h : s.drawRnd = (r, u)) :
    exec (.rnd x nn) s = .next (u.finish x (r &&& nn)) := by
  rw [exec, execRnd, h]

/-- Settles O42: a data result after either case of the draw. -/
theorem randomDrawTakesInputOrFreeValue : Obligations.RandomDrawTakesInputOrFreeValue := by
  refine ⟨fun s x nn rnd rest hin => ?_, fun s x nn hin => ?_⟩
  · obtain ⟨v, hfinish, hget⟩ := State.finish_frame { s with rndIn := rest } x (rnd &&& nn)
    exact ⟨v, by rw [exec_rnd_of_drawRnd x nn (s.drawRnd_cons hin), hfinish], hget⟩
  · have hdraw : s.drawRnd = (Config.rndByte s.draws, { s with draws := s.draws + 1 }) := by
      rw [State.drawRnd, hin]
    obtain ⟨v, hfinish, hget⟩ :=
      State.finish_frame { s with draws := s.draws + 1 } x (Config.rndByte s.draws &&& nn)
    exact ⟨v, by rw [exec_rnd_of_drawRnd x nn hdraw, hfinish], hget⟩

/-! ## Memory: reads after writes -/

theorem State.byteAt_memWrite (s : State) (a c : Nat) (b : Byte) :
    (s.memWrite a b).byteAt c = if mask12 c = mask12 a then b else s.byteAt c := by
  rw [s.memWrite_eq]
  exact Memory.read_write s.params s.mem (mask12 a) (mask12 c) b

/-- Settles O49: masking is reduction modulo 4096. -/
theorem readAfterWrite : Obligations.ReadAfterWrite := by
  refine fun s a b => ⟨?_, fun c hc => ?_, fun hwf => ?_⟩
  · exact (s.byteAt_memWrite a a b).trans (if_pos rfl)
  · exact (s.byteAt_memWrite a c b).trans (if_neg hc)
  · rw [s.memWrite_eq]
    exact Memory.write_wf _ _ _ _ (mask12_lt a) hwf

/-- Settles O47: what FX65 loads from the masked addresses is what FX55 stored there, I being the same. -/
theorem storeThenLoadRestoresRegisters : Obligations.StoreThenLoadRestoresRegisters := by
  intro s x t u h hI hbytes
  obtain ⟨m, hstore, hread, -⟩ := s.storeRegs_frame x
  obtain ⟨v, hload, hget⟩ := u.loadRegs_frame x
  cases h
  rw [hstore] at hI hbytes
  refine ⟨_, congrArg Host.Outcome.next hload, fun k hk => ?_⟩
  calc v.get k = u.byte (addr12 (u.I.toNat + k.val)) := by rw [hget, if_pos hk]
    _ = State.byte { s with mem := m } (addr12 (s.I.toNat + k.val)) := by rw [hI]; exact hbytes k.val hk
    _ = s.V.get k := hread k hk

theorem addr12_add_one {a b : Nat} (h : addr12 a = addr12 b) : addr12 (a + 1) = addr12 (b + 1) := by
  rw [addr12, addr12, BitVec.ofNat_add, BitVec.ofNat_add]
  exact congrArg (· + 1#12) h

/-- Settles O48: the fetch reads its two bytes at the two masked addresses that the store wrote last. -/
theorem storedWordIsFetchedNext : Obligations.StoredWordIsFetchedNext := by
  intro s x k l t h hl hlx haddr
  obtain ⟨m, hstore, hread, -⟩ := s.storeRegs_frame x
  have hkx : k ≤ x := Fin.le_def.mpr (by have := Fin.le_def.mp hlx; omega)
  have hnext : addr12 (s.I.toNat + l.val) = addr12 (t.pc.toNat + 1) := by
    rw [hl, ← Nat.add_assoc]
    exact addr12_add_one haddr
  have hhigh : t.byte (addr12 t.pc.toNat) = s.V.get k := by
    rw [← haddr, ← hread k hkx]
    cases h
    rw [hstore]; rfl
  have hlow : t.byte (addr12 (t.pc.toNat + 1)) = s.V.get l := by
    rw [← hnext, ← hread l hlx]
    cases h
    rw [hstore]; rfl
  rw [(fetchIsBigEndianAndMasked t).left, hhigh, hlow]

/-! ## Canonical memories -/

section

variable {p : Config.Params}

/-- The rest of a canonical list is canonical, and its addresses are above the first. -/
theorem Memory.wf_cons {k : Nat} {v : Byte} {m : Memory} (h : Memory.wf p ((k, v) :: m)) :
    k < 4096 ∧ v ≠ unlisted p k ∧ (∀ e ∈ m, k < e.1) ∧ Memory.wf p m := by
  obtain ⟨hsorted, hlisted⟩ := h
  obtain ⟨habove, hrest⟩ := List.pairwise_cons.mp hsorted
  obtain ⟨hk, hv⟩ := hlisted _ List.mem_cons_self
  exact ⟨hk, hv, habove, hrest, fun c hc => hlisted c (List.mem_cons_of_mem _ hc)⟩

/-- The first listed address of a canonical list is one at which a list of higher addresses reads differently. -/
theorem Memory.read_ne_of_above {k : Nat} {v : Byte} {m m' : Memory} (h : Memory.wf p ((k, v) :: m))
    (habove : ∀ e ∈ m', k < e.1) : Memory.read p ((k, v) :: m) k ≠ Memory.read p m' k := by
  obtain ⟨-, hv, -, -⟩ := Memory.wf_cons h
  rw [Memory.read_below p m' k habove, Memory.read, if_pos rfl]
  exact hv

/-- If two canonical lists read the same, neither starts below the other. -/
theorem Memory.not_lt_of_read_eq {k k' : Nat} {v v' : Byte} {m m' : Memory} (h : Memory.wf p ((k, v) :: m))
    (h' : Memory.wf p ((k', v') :: m'))
    (hread : ∀ a < 4096, Memory.read p ((k, v) :: m) a = Memory.read p ((k', v') :: m') a) : ¬ k < k' := by
  intro hlt
  obtain ⟨hk, -, -, -⟩ := Memory.wf_cons h
  obtain ⟨-, -, habove, -⟩ := Memory.wf_cons h'
  refine Memory.read_ne_of_above h (fun e he => ?_) (hread k hk)
  rcases List.mem_cons.mp he with rfl | he
  · exact hlt
  · exact hlt.trans (habove e he)

end

/-- Settles O50, by induction on the first list: the lists start at the same address, where the bytes are read, and below
the rest's addresses both rests read as unlisted. -/
theorem canonicalMemoryIsUnique : Obligations.CanonicalMemoryIsUnique := by
  intro p m
  induction m with
  | nil =>
    intro m' _ h' hread
    cases m' with
    | nil => rfl
    | cons e m' =>
      obtain ⟨hk, -⟩ := Memory.wf_cons h'
      exact absurd (hread e.1 hk).symm (Memory.read_ne_of_above h' (by simp))
  | cons e m ih =>
    intro m' h h' hread
    obtain ⟨k, v⟩ := e
    obtain ⟨hk, -, habove, hwf⟩ := Memory.wf_cons h
    cases m' with
    | nil => exact absurd (hread k hk) (Memory.read_ne_of_above h (by simp))
    | cons e' m' =>
      obtain ⟨k', v'⟩ := e'
      obtain ⟨-, -, habove', hwf'⟩ := Memory.wf_cons h'
      have hkeq : k = k' := Nat.le_antisymm
        (Nat.le_of_not_lt (Memory.not_lt_of_read_eq h' h fun a ha => (hread a ha).symm))
        (Nat.le_of_not_lt (Memory.not_lt_of_read_eq h h' hread))
      subst hkeq
      have hv : v = v' := by simpa [Memory.read] using hread k hk
      have hrest : m = m' := ih m' hwf hwf' fun a ha => by
        by_cases hak : a = k
        · rw [hak, Memory.read_below p m k habove, Memory.read_below p m' k habove']
        · simpa [Memory.read, hak] using hread a ha
      rw [hv, hrest]

/-! ## Drawing twice -/

/-- What a DXYN that ran did to the framebuffer and VF, by the pixels that its sprite covers. -/
theorem exec_drw_display {x y : Reg} {n : Fin 16} {s t : State} (h : exec (.drw x y n) s = .next t) :
    (∀ p, s.spriteCovers x y n.val p → Framebuffer.get t.fb p = !Framebuffer.get s.fb p) ∧
    (∀ p, ¬ s.spriteCovers x y n.val p → Framebuffer.get t.fb p = Framebuffer.get s.fb p) ∧
    (t.V.get 0xF = 1 ↔ ∃ p, s.spriteCovers x y n.val p ∧ Framebuffer.get s.fb p = true) := by
  obtain ⟨fb, v, hexec, hflip, hkeep, -, hVF, -⟩ := drawSpriteFlipsCoveredPixels.right s x y n
  rw [hexec] at h
  cases h
  exact ⟨hflip, hkeep, hVF⟩

/-- Settles O53: the second sprite covers the pixels of the first, which flips them back, and a covered pixel is set
before the second draw exactly if it was not before the first. -/
theorem drawTwiceRestoresFramebuffer : Obligations.DrawTwiceRestoresFramebuffer := by
  intro s x y n t u ht hu hx hy
  have hkept := exec_keptOutside ht
  have hcovers : t.spriteCovers x y n.val = s.spriteCovers x y n.val := by
    simp only [State.spriteCovers, State.byte, hx, hy, hkept.params, hkept.mem rfl, hkept.I rfl]
  obtain ⟨hflip, hkeep, -⟩ := exec_drw_display ht
  obtain ⟨hflip', hkeep', hVF⟩ := exec_drw_display hu
  rw [hcovers] at hflip' hkeep' hVF
  refine ⟨Framebuffer.ext_get _ _ fun p => ?_, hVF.trans (exists_congr fun p => ?_)⟩
  · by_cases hp : s.spriteCovers x y n.val p
    · rw [hflip' p hp, hflip p hp, Bool.not_not]
    · rw [hkeep' p hp, hkeep p hp]
  · by_cases hp : s.spriteCovers x y n.val p
    · simp [hp, hflip p hp]
    · simp [hp, hkeep p hp]

end Sys2Proof.Machine
